-- ==== Sys2Proof/Word.lean ====
section
/-! DEFINITION. The word types of the hardware (00_scope.md R5, R7).
Every value of this hardware is unsigned; nothing is sign-extended anywhere. -/

namespace Sys2Proof

/-- A byte: one memory cell, one V register, one timer (R5, R7, R21, R31). -/
abbrev Byte := BitVec 8

/-- A 16-bit word: an opcode, `I`, `PC`, a call-stack slot (R5, R7, R23, R24, R28). -/
abbrev Word := BitVec 16

/-- The 12-bit address operand `nnn` of an instruction (R8, R85). -/
abbrev Addr := BitVec 12

/-- The number of a general register, V0 to VF (R21). -/
abbrev Reg := Fin 16

end Sys2Proof
end

