-- ==== Sys2Proof/Decode.lean ====
section
/-! DEFINITION. The decoder (30_encoding.md R80 to R89), total on any bytes, and after it the encoder, both written from
the formats of R85 and the opcode map of R86. -/

namespace Sys2Proof

/-- Why bytes are no instruction. -/
inductive DecodeError where
  /-- The word matches no row of R86 (R88); the executor raises `UnknownOpcode` (R206). -/
  | unknownOpcode (op : Word)
  /-- Fewer than two bytes: every instruction is two bytes (R80). The executor always fetches two. -/
  | truncated
deriving DecidableEq, Repr

/-! ## Fields of a word -/

/-- The bit slice `v[hi:lo]` as an unsigned number (00_scope.md R7). -/
def bitSlice (v : Word) (hi lo : Nat) : Nat := v.toNat / 2 ^ lo % 2 ^ (hi - lo + 1)

/-- `x = op[11:8]` (R8, R85). -/
def fieldX (op : Word) : Reg := Fin.ofNat 16 (bitSlice op 11 8)

/-- `y = op[7:4]` (R8, R85). -/
def fieldY (op : Word) : Reg := Fin.ofNat 16 (bitSlice op 7 4)

/-- `n = op[3:0]`, a count (R8, R85). -/
def fieldN (op : Word) : Fin 16 := Fin.ofNat 16 (bitSlice op 3 0)

/-- `kk = op[7:0]` (R8, R85). -/
def fieldKk (op : Word) : Byte := BitVec.ofNat 8 (bitSlice op 7 0)

/-- `nnn = op[11:0]` (R8, R85). -/
def fieldNnn (op : Word) : Addr := BitVec.ofNat 12 (bitSlice op 11 0)

/-! ## The decoder -/

/-- Family 0 is decided by the whole low 12 bits: CLS and RET first, every other word the no-op (R82, R87). -/
def decodeFamily0 (op : Word) : Instr :=
  if op = 0x00E0 then .cls else if op = 0x00EE then .ret else .sys (fieldNnn op)

/-- Family 8 is decided by `op[3:0]` (R82); 8 to D and F match no row (R88). -/
def decodeFamily8 (op : Word) : Except DecodeError Instr :=
  match bitSlice op 3 0 with
  | 0x0 => .ok (.ldReg (fieldX op) (fieldY op))
  | 0x1 => .ok (.orReg (fieldX op) (fieldY op))
  | 0x2 => .ok (.andReg (fieldX op) (fieldY op))
  | 0x3 => .ok (.xorReg (fieldX op) (fieldY op))
  | 0x4 => .ok (.addReg (fieldX op) (fieldY op))
  | 0x5 => .ok (.subReg (fieldX op) (fieldY op))
  | 0x6 => .ok (.shr (fieldX op) (fieldY op))
  | 0x7 => .ok (.subnReg (fieldX op) (fieldY op))
  | 0xE => .ok (.shl (fieldX op) (fieldY op))
  | _ => .error (.unknownOpcode op)

/-- Families 5 and 9 hold one instruction each, whose low nibble is 0 (R82). -/
def decodeLowNibbleZero (op : Word) (i : Instr) : Except DecodeError Instr :=
  if bitSlice op 3 0 = 0 then .ok i else .error (.unknownOpcode op)

/-- Family E is decided by `op[7:0]` (R82). -/
def decodeFamilyE (op : Word) : Except DecodeError Instr :=
  match bitSlice op 7 0 with
  | 0x9E => .ok (.skp (fieldX op))
  | 0xA1 => .ok (.sknp (fieldX op))
  | _ => .error (.unknownOpcode op)

/-- Family F is decided by `op[7:0]` (R82). -/
def decodeFamilyF (op : Word) : Except DecodeError Instr :=
  match bitSlice op 7 0 with
  | 0x07 => .ok (.ldVxDt (fieldX op))
  | 0x0A => .ok (.ldVxK (fieldX op))
  | 0x15 => .ok (.ldDtVx (fieldX op))
  | 0x18 => .ok (.ldStVx (fieldX op))
  | 0x1E => .ok (.addIVx (fieldX op))
  | 0x29 => .ok (.ldFVx (fieldX op))
  | 0x33 => .ok (.ldBVx (fieldX op))
  | 0x55 => .ok (.ldMemVx (fieldX op))
  | 0x65 => .ok (.ldVxMem (fieldX op))
  | _ => .error (.unknownOpcode op)

/-- Decode one opcode: the first nibble selects the family (R82). The slice is below 16, so the last arm is family F. -/
def decodeWord (op : Word) : Except DecodeError Instr :=
  match bitSlice op 15 12 with
  | 0x0 => .ok (decodeFamily0 op)
  | 0x1 => .ok (.jp (fieldNnn op))
  | 0x2 => .ok (.call (fieldNnn op))
  | 0x3 => .ok (.seImm (fieldX op) (fieldKk op))
  | 0x4 => .ok (.sneImm (fieldX op) (fieldKk op))
  | 0x5 => decodeLowNibbleZero op (.seReg (fieldX op) (fieldY op))
  | 0x6 => .ok (.ldImm (fieldX op) (fieldKk op))
  | 0x7 => .ok (.addImm (fieldX op) (fieldKk op))
  | 0x8 => decodeFamily8 op
  | 0x9 => decodeLowNibbleZero op (.sneReg (fieldX op) (fieldY op))
  | 0xA => .ok (.ldI (fieldNnn op))
  | 0xB => .ok (.jpV0 (fieldNnn op))
  | 0xC => .ok (.rnd (fieldX op) (fieldKk op))
  | 0xD => .ok (.drw (fieldX op) (fieldY op) (fieldN op))
  | 0xE => decodeFamilyE op
  | _ => decodeFamilyF op

/-! ## Bytes and words (20_memory.md R56: the byte at the lower address is the more significant) -/

/-- `op = hi * 256 + lo` (R57). -/
def wordOfBytes (hi lo : Byte) : Word := BitVec.ofNat 16 (hi.toNat * 256 + lo.toNat)

/-- The more significant byte of a word, which stands at the lower address (R56). -/
def highByte (op : Word) : Byte := BitVec.ofNat 8 (bitSlice op 15 8)

/-- The less significant byte of a word, which stands at the higher address (R56). -/
def lowByte (op : Word) : Byte := BitVec.ofNat 8 (bitSlice op 7 0)

/-- Decode the instruction at the head of a byte sequence and give the bytes after it (R80). -/
def decodeBytes : List Byte → Except DecodeError (Instr × List Byte)
  | hi :: lo :: rest =>
    match decodeWord (wordOfBytes hi lo) with
    | .ok i => .ok (i, rest)
    | .error e => .error e
  | _ => .error .truncated

/-- The word an opcode-table number stands for: bits at and above `nbits` are 0. -/
def tableWord (nbits w : Nat) : Word := BitVec.ofNat 16 (w % 2 ^ nbits)

/-- What the decoder reads from the table word `w`, laid out in memory order. -/
def decodeTableWord (nbits w : Nat) : Option Instr :=
  match decodeBytes [highByte (tableWord nbits w), lowByte (tableWord nbits w)] with
  | .ok (i, _) => some i
  | .error _ => none

/-! ## The encoder -/

/-- Format A: opcode nibble and `nnn` (R85). -/
def formatA (opcode : Nat) (nnn : Addr) : Word := BitVec.ofNat 16 (opcode * 4096 + nnn.toNat)

/-- Format XK: opcode nibble, `x`, `kk` (R85). -/
def formatXK (opcode : Nat) (x : Reg) (kk : Byte) : Word :=
  BitVec.ofNat 16 (opcode * 4096 + x.val * 256 + kk.toNat)

/-- Formats XY and XYN: opcode nibble, `x`, `y`, and a literal function or the count `n` (R85). -/
def formatXYN (opcode : Nat) (x y : Reg) (low : Nat) : Word :=
  BitVec.ofNat 16 (opcode * 4096 + x.val * 256 + y.val * 16 + low)

/-- Format X: opcode nibble, `x`, function byte (R85). -/
def formatX (opcode : Nat) (x : Reg) (function : Nat) : Word :=
  BitVec.ofNat 16 (opcode * 4096 + x.val * 256 + function)

/-- The word of a well-formed instruction, from the patterns of R86. -/
def encode : Instr → Word
  | .cls => 0x00E0
  | .ret => 0x00EE
  | .sys nnn => formatA 0x0 nnn
  | .jp nnn => formatA 0x1 nnn
  | .call nnn => formatA 0x2 nnn
  | .seImm x kk => formatXK 0x3 x kk
  | .sneImm x kk => formatXK 0x4 x kk
  | .seReg x y => formatXYN 0x5 x y 0x0
  | .ldImm x kk => formatXK 0x6 x kk
  | .addImm x kk => formatXK 0x7 x kk
  | .ldReg x y => formatXYN 0x8 x y 0x0
  | .orReg x y => formatXYN 0x8 x y 0x1
  | .andReg x y => formatXYN 0x8 x y 0x2
  | .xorReg x y => formatXYN 0x8 x y 0x3
  | .addReg x y => formatXYN 0x8 x y 0x4
  | .subReg x y => formatXYN 0x8 x y 0x5
  | .shr x y => formatXYN 0x8 x y 0x6
  | .subnReg x y => formatXYN 0x8 x y 0x7
  | .shl x y => formatXYN 0x8 x y 0xE
  | .sneReg x y => formatXYN 0x9 x y 0x0
  | .ldI nnn => formatA 0xA nnn
  | .jpV0 nnn => formatA 0xB nnn
  | .rnd x kk => formatXK 0xC x kk
  | .drw x y n => formatXYN 0xD x y n.val
  | .skp x => formatX 0xE x 0x9E
  | .sknp x => formatX 0xE x 0xA1
  | .ldVxDt x => formatX 0xF x 0x07
  | .ldVxK x => formatX 0xF x 0x0A
  | .ldDtVx x => formatX 0xF x 0x15
  | .ldStVx x => formatX 0xF x 0x18
  | .addIVx x => formatX 0xF x 0x1E
  | .ldFVx x => formatX 0xF x 0x29
  | .ldBVx x => formatX 0xF x 0x33
  | .ldMemVx x => formatX 0xF x 0x55
  | .ldVxMem x => formatX 0xF x 0x65

end Sys2Proof
end

