-- ==== Sys2Proof/Config.lean ====
section
/-! DEFINITION. What is fixed for the machine (the parameters of 00_scope.md R5 that the definitions use) and the one
free value of the spec, the draw of `Cxkk`. The other parameter, `FONT`, is carried by the memory as plain data
(assumption log 3). -/

namespace Sys2Proof.Config

/-- `MEM_SIZE` (R5): memory has 4096 byte cells; an address selects the cell of its remainder (R54). -/
@[simp] def memSize : Nat := 4096

/-- `FONT_BYTES` (R5): the font occupies the cells below this address; `FONT_BASE` is 0. -/
@[simp] def fontBytes : Nat := 80

/-- `PROG_BASE` (R5): where a program is loaded, and the value of `PC` after Construct and Load. -/
@[simp] def progBase : Nat := 0x200

/-- `ROM_MAX` (R5): the greatest number of bytes a Load accepts, 4096 - 0x200. -/
@[simp] def romMax : Nat := 3584

/-- `random_byte()` of `Cxkk` (R131, R9 `draw()`): the source defines nothing about it, so this is a FREE VALUE, one
uninterpreted byte for each draw number. Nothing can be proved of it (assumption log 2). -/
opaque randomByte : Nat → Byte

end Sys2Proof.Config
end

