-- ==== Sys2Proof/Machine/State.lean ====
section
/-! DEFINITION. The state of the core (10_state.md R20, and nothing else but the two fields of the model's own that are
marked so), the reasons a step could stop, and the state after reset. -/

namespace Sys2Proof.Machine

/-- Memory (20_memory.md R50): the bytes that differ from the reset contents, by address.
The cells are in one canonical form (`Memory.wf`, Machine/Ops.lean). -/
structure Memory where
  /-- The parameter `FONT` (R60): what the font cells hold after Construct and Load. No event changes it. -/
  font : Vector Byte 80
  /-- The listed cells, addresses strictly rising, none equal to what an unlisted address reads as. -/
  cells : List Host.Cell
deriving DecidableEq, Repr

/-- The display buffer `disp[cx][cy]` (R30): 64 columns of 32 one-bit pixels, true when set. -/
abbrev Display := Vector (Vector Bool 32) 64

/-- A pixel's place, `(cx, cy)` (R30). -/
abbrev Pixel := Fin 64 × Fin 32

/-- The three kinds of fatal fault a Step raises (60_exceptions.md R200). -/
inductive FaultKind where
  /-- A CALL with 16 entries on the stack (R204). -/
  | stackOverflow
  /-- A RET with an empty stack (R205). -/
  | stackUnderflow
  /-- A fetched word that matches no row of the opcode map (R206). -/
  | unknownOpcode
deriving DecidableEq, Repr

/-- `status` (R33): running, or halted with the kind, the opcode and the address of the faulting instruction (R201). -/
inductive Status where
  | running
  | halted (kind : FaultKind) (op pc : Word)
deriving DecidableEq, Repr

/-- The events by which the core's state changes, each atomic, one at a time (60_exceptions.md R215). -/
inductive Event where
  /-- The executor runs (30_encoding.md R81). Its draw is the free value `Config.randomByte`. -/
  | step
  /-- The 60 Hz tick of both timers (R216). -/
  | tick
  /-- The host presses key `k` (R219). -/
  | keyDown (k : Fin 16)
  /-- The host releases key `k` (R219). -/
  | keyUp (k : Fin 16)
  /-- The host loads a program (70_reset_and_hazards.md R231 to R233). -/
  | load (rom : List Byte)
  /-- The core is constructed anew (R230). -/
  | construct
deriving DecidableEq, Repr

/-- The whole state (R20). `schedule` and `draws` are the MODEL's own fields: the environment as plain data. -/
structure State where
  /-- `mem`, 4096 byte cells (R50). -/
  mem : Memory
  /-- `V[0..15]` (R21). -/
  v : Vector Byte 16
  /-- `I` (R23). -/
  i : Word
  /-- `PC` (R24). -/
  pc : Word
  /-- `SP`, the number of call-stack entries in use, 0 to 16 (R29). -/
  sp : Fin 17
  /-- `stack[0..15]`, in no address space (R28). -/
  stack : Vector Word 16
  /-- `disp` (R30). -/
  disp : Display
  /-- `DT`, the delay timer (R31). -/
  dt : Byte
  /-- `ST`, the sound timer (R31). -/
  st : Byte
  /-- `key[0..15]`, true when pressed (R32). -/
  key : Vector Bool 16
  /-- `status` (R33). -/
  status : Status
  /-- `changed`, the display-changed hint (60_exceptions.md R221). -/
  changed : Bool
  /-- The model's own: how many draws `Cxkk` has taken; it selects the next free byte (assumption log 2). -/
  draws : Nat
  /-- The model's own: the events the environment issues next, first one first; with none left it issues Steps
  (assumption log 1). -/
  schedule : List Event
deriving DecidableEq, Repr

/-- The reasons the machine could stop with no next state: there are none. Each of the three fatal faults of R200 has an
effect the spec gives (R201), so taking one is a next state with status `halted`, and a Step while halted is a next state
too (R203). SAFE: nothing is left out by it. -/
inductive Fault where
deriving DecidableEq, Repr

/-- The reasons for refusing an instruction. -/
inductive Refusal where
  /-- An instruction with no meaning yet, raised by `exec`'s arms only; every instruction has its meaning, so no arm
  raises it. SAFE: a refusal proves nothing of the hardware. -/
  | notModelled (mnemonic : String)
deriving DecidableEq, Repr

/-- What a meaning and a step answer. -/
abbrev Result := Host.Outcome State Fault Refusal

/-- The state right after Construct: the "after Construct" column of 10_state.md R37, with the customary `FONT`
(assumption log 3), no draw taken and no event scheduled (assumption logs 1 and 2). -/
def State.reset : State where
  mem := { font := customaryFont, cells := [] }
  v := Vector.replicate 16 0
  i := 0
  pc := 0x200
  sp := 0
  stack := Vector.replicate 16 0
  disp := Vector.replicate 64 (Vector.replicate 32 false)
  dt := 0
  st := 0
  key := Vector.replicate 16 false
  status := .running
  changed := false
  draws := 0
  schedule := []

end Sys2Proof.Machine
end

