-- ==== Sys2Proof/Machine/Ops.lean ====
section
/-! DEFINITION. The operations every meaning is written with: memory access, instruction fetch, the registers, the
program counter, the call stack, the fault action, the display buffer, and what the executor stores around an
instruction. -/

namespace Sys2Proof.Machine

/-! ## Memory (20_memory.md) -/

/-- What an address reads as when no cell lists it: the reset contents (R37), the font below 0x050 and zero above. -/
def initialByte (font : Vector Byte 80) (a : Nat) : Byte := if h : a < 80 then font[a] else 0

/-- The canonical form: addresses strictly rising, each a cell of the memory (R50), none listed with what an unlisted
address reads as. Two memories of one font that are in this form and read alike are equal. -/
abbrev Memory.wf (m : Memory) : Prop :=
  m.cells.Pairwise (fun c d => c.1 < d.1) ∧
    ∀ c ∈ m.cells, c.1 < Config.memSize ∧ c.2 ≠ initialByte m.font c.1

/-- The byte listed for a cell, if one is. -/
def findCell (a : Nat) : List Host.Cell → Option Byte
  | [] => none
  | c :: cs => if c.1 = a then some c.2 else findCell a cs

/-- The list without the cell `a`. -/
def dropCell (a : Nat) : List Host.Cell → List Host.Cell
  | [] => []
  | c :: cs => if c.1 = a then dropCell a cs else c :: dropCell a cs

/-- The list with one more cell, before the first greater address. -/
def insertCell (new : Host.Cell) : List Host.Cell → List Host.Cell
  | [] => [new]
  | c :: cs => if new.1 < c.1 then new :: c :: cs else c :: insertCell new cs

/-- `mem[a mod 4096]` (R52, R54): an address is a natural number, reduced here and nowhere else. -/
def Memory.read (m : Memory) (a : Nat) : Byte :=
  (findCell (a % Config.memSize) m.cells).getD (initialByte m.font (a % Config.memSize))

/-- `mem[a mod 4096] <- b` (R53, R54), keeping the canonical form: a byte equal to what the unlisted address reads as is
not listed. No cell is protected (R55). -/
def Memory.write (m : Memory) (a : Nat) (b : Byte) : Memory :=
  let key := a % Config.memSize
  let others := dropCell key m.cells
  { m with cells := if b = initialByte m.font key then others else insertCell (key, b) others }

/-- Write bytes at ascending addresses from `a` (R56). -/
def Memory.writeBytes (m : Memory) (a : Nat) : List Byte → Memory
  | [] => m
  | b :: bs => (m.write a b).writeBytes (a + 1) bs

/-- The cells of a program placed at `a`, in canonical form: zero bytes are what those cells read as anyway. -/
def romCells (a : Nat) : List Byte → List Host.Cell
  | [] => []
  | b :: bs => if b = 0 then romCells (a + 1) bs else (a, b) :: romCells (a + 1) bs

/-- `MemRead(a, 1)` (R52). -/
def State.memRead (s : State) (a : Nat) : Byte := s.mem.read a

/-- The `n` bytes at `a`, `a + 1`, … (R54, R56). -/
def State.loadBytes (s : State) (a n : Nat) : List Byte := (List.range n).map fun k => s.memRead (a + k)

/-- `MemWrite(a + k, 1, bytes[k])` for each byte (R53, R56). -/
def State.storeBytes (s : State) (a : Nat) (bytes : List Byte) : State :=
  { s with mem := s.mem.writeBytes a bytes }

/-- The opcode at `PC`: `hi` from `PC`, `lo` from `PC + 1`, each address reduced on its own (R57). -/
def State.fetchWord (s : State) : Word :=
  wordOfBytes (s.memRead s.pc.toNat) (s.memRead (s.pc.toNat + 1))

/-- A state with the word `op` stored where the next instruction is fetched (R57). -/
def State.placeWord (s : State) (op : Word) : State :=
  s.storeBytes s.pc.toNat [highByte op, lowByte op]

/-! ## Registers (10_state.md) -/

/-- `V[r]` (R21): no register is hardwired. -/
def State.readV (s : State) (r : Reg) : Byte := s.v[r]

/-- `V[r] <- b` (R21). -/
def State.writeV (s : State) (r : Reg) (b : Byte) : State := { s with v := s.v.set r b }

/-- The register file with `V[0..x]` replaced by the bytes at `a`, `a + 1`, …; registers above `x` keep their values. -/
def State.fileLoaded (s : State) (x : Reg) (a : Nat) : Vector Byte 16 :=
  s.v.mapIdx fun r b => if r ≤ x.val then s.memRead (a + r) else b

/-- `V[0..x] <- bytes read at a, a + 1, …` (42_index_memory.md R146). -/
def State.loadRegs (s : State) (x : Reg) (a : Nat) : State := { s with v := s.fileLoaded x a }

/-! ## Program counter (10_state.md R24 to R27) -/

/-- `PC <- (PC + 2) mod 65536` (R26). -/
def State.advance (s : State) : State := { s with pc := s.pc + 2 }

/-- A skip instruction's end: `+4` when its condition holds, else `+2` (R26, R84). -/
def State.skipIf (s : State) (c : Bool) : State := { s with pc := if c then s.pc + 4 else s.pc + 2 }

/-- `PC <- t`, any value, odd ones too (R27). -/
def State.jumpTo (s : State) (t : Word) : State := { s with pc := t }

/-! ## Call stack (10_state.md R29) -/

/-- Push: none when 16 entries are in use, else `stack[SP] <- w; SP <- SP + 1` (R29). -/
def State.push? (s : State) (w : Word) : Option State :=
  if h : s.sp.val < 16 then
    some { s with stack := s.stack.set s.sp.val w, sp := ⟨s.sp.val + 1, Nat.succ_lt_succ h⟩ }
  else none

/-- Pop: none when the stack is empty, else the most recent entry and the state with `SP - 1`; the slot keeps its
contents (R29). -/
def State.pop? (s : State) : Option (Word × State) :=
  if h : 0 < s.sp.val then
    some (s.stack[s.sp.val - 1]'(by omega), { s with sp := ⟨s.sp.val - 1, by omega⟩ })
  else none

/-! ## The fault action -/

/-- `raise K(op, pc)` (60_exceptions.md R201): the record is stored in `status`, the display hint is cleared, and nothing
else changes. There is no handler, no saved register and no return from it (R210, R211). -/
def State.raise (s : State) (kind : FaultKind) (op : Word) : State :=
  { s with status := .halted kind op s.pc, changed := false }

/-! ## Display buffer (10_state.md R30) -/

/-- `disp[cx][cy]`. -/
def Display.pixel (d : Display) (p : Pixel) : Bool := d[p.1][p.2]

/-- `disp[cx][cy] <- disp[cx][cy] ^ 1`. -/
def Display.toggle (d : Display) (p : Pixel) : Display := d.set p.1 (d[p.1].set p.2 (!(d[p.1][p.2])))

/-- All pixels clear. -/
def Display.allClear : Display := Vector.replicate 64 (Vector.replicate 32 false)

/-- Toggle pixels one after the other, noting whether one of them went from set to clear (43_display.md R161). -/
def Display.togglePixels (d : Display) (coll : Bool) : List Pixel → Display × Bool
  | [] => (d, coll)
  | p :: ps => Display.togglePixels (Display.toggle d p) (coll || Display.pixel d p) ps

/-! ## What the executor adds to an instruction -/

/-- `changed <- (disp after != disp before)` (30_encoding.md R81, 60_exceptions.md R221). -/
def State.markChanged (before after : State) : State :=
  { after with changed := decide (after.disp ≠ before.disp) }

/-- The event the environment issues next, and the state with that event taken from the schedule (60_exceptions.md
R215): with nothing scheduled it issues a Step (assumption log 1). -/
def State.takeEvent (s : State) : Event × State :=
  match s.schedule with
  | [] => (.step, s)
  | e :: rest => (e, { s with schedule := rest })

end Sys2Proof.Machine
end

