-- ==== Sys2Proof/Machine/Operands.lean ====
section
/-! DEFINITION. The operand forms: the data address through `I` (42_index_memory.md R139), jump targets, the glyph address,
the decimal digits, the key a register selects, and the pixels of a sprite. -/

namespace Sys2Proof.Machine

/-- The base of every data access, `I` as a natural number; `I` itself is never reduced (R23, R139). The memory reduces
each address `I + k` (20_memory.md R54). -/
def State.dataAddr (s : State) : Nat := s.i.toNat

/-- `zext_16(nnn)` (R85). -/
def addrWord (nnn : Addr) : Word := nnn.setWidth 16

/-- `zext_16(V[x])`. -/
def byteWord (b : Byte) : Word := b.setWidth 16

/-- `FONT_BASE + 5 * zext_16(V[x])`, the whole byte used, with no masking to a digit (R142). -/
def glyphAddr (digit : Byte) : Word := BitVec.ofNat 16 (5 * digit.toNat)

/-- The decimal digits of a byte, hundreds, tens, ones, one binary byte each (R143, R144). -/
def decimalDigits (b : Byte) : List Byte :=
  [BitVec.ofNat 8 (b.toNat / 100), BitVec.ofNat 8 (b.toNat / 10 % 10), BitVec.ofNat 8 (b.toNat % 10)]

/-- The registers `V[0..x]` inclusive (R145). -/
def State.regsUpTo (s : State) (x : Reg) : List Byte := s.v.toList.take (x.val + 1)

/-- The key a register selects: the low nibble of its value (44_keypad_timers.md R173). -/
def keyIndex (b : Byte) : Fin 16 := Fin.ofNat 16 b.toNat

/-- `key[k]`, true when pressed (10_state.md R32). -/
def State.keyPressed (s : State) (k : Fin 16) : Bool := s.key[k]

/-- The least pressed key, if any is pressed (R174). -/
def State.leastKey (s : State) : Option (Fin 16) := (List.finRange 16).find? s.keyPressed

/-- The pixel of sprite column `col` and row `row`: each coordinate wraps on its own, the start position too
(43_display.md R161). -/
def spritePixel (x0 y0 : Byte) (row col : Nat) : Pixel :=
  (Fin.ofNat 64 (x0.toNat + col), Fin.ofNat 32 (y0.toNat + row))

/-- A sprite bit: bit 7 of the row's byte is column 0, bit 0 is column 7 (R162). -/
def spriteBit (b : Byte) (col : Nat) : Bool := b.getLsbD (7 - col)

/-- The pixels of one sprite row's set bits, column 0 first (R161). -/
def rowPixels (x0 y0 : Byte) (row : Nat) (b : Byte) : List Pixel :=
  ((List.range 8).filter (spriteBit b)).map (spritePixel x0 y0 row)

/-- The pixels of a sprite's set bits, from the given row on (R161). -/
def spritePixels (x0 y0 : Byte) (row : Nat) : List Byte → List Pixel
  | [] => []
  | b :: bs => rowPixels x0 y0 row b ++ spritePixels x0 y0 (row + 1) bs

end Sys2Proof.Machine
end

