-- ==== Sys2Proof/Machine/Events.lean ====
section
/-! DEFINITION. The events that are not Steps, and the host's pure observations (60_exceptions.md sections 3 to 5,
70_reset_and_hazards.md section 1). None of them is gated by the status (R203). -/

namespace Sys2Proof.Machine

/-- One counter's `tick()`: decrement if above zero, no-op at 0 (R216). -/
def tickCounter (c : Byte) : Byte := if c.toNat > 0 then c - 1 else c

/-- `Tick`: both timers once, and nothing else (R216). -/
def State.tick (s : State) : State := { s with dt := tickCounter s.dt, st := tickCounter s.st }

/-- `KeyDown(k)` (R219). -/
def State.keyDown (s : State) (k : Fin 16) : State := { s with key := s.key.set k true }

/-- `KeyUp(k)` (R219). -/
def State.keyUp (s : State) (k : Fin 16) : State := { s with key := s.key.set k false }

/-- `Construct`: every element of R20 at the "after Construct" value of R37. The parameter `FONT`, the draw number and the
environment's schedule are no elements of the core and stay (assumption logs 1 to 3). -/
def State.construct (s : State) : State :=
  { State.reset with
    mem := { font := s.mem.font, cells := [] }
    draws := s.draws
    schedule := s.schedule }

/-- What a Load can report instead of success (R207). -/
inductive LoadError where
  /-- The program has more than 3584 bytes (R231). -/
  | programTooLarge
deriving DecidableEq, Repr

/-- A successful Load: the "after successful Load" column of R37; all 4096 cells are rewritten, the key latch is left
alone, `changed` becomes 1 (R232). -/
def State.loaded (s : State) (rom : List Byte) : State :=
  { s.construct with
    mem := { font := s.mem.font, cells := romCells Config.progBase rom }
    key := s.key
    changed := true }

/-- `Load(rom)` with its result: an error for a program of more than 3584 bytes, else the loaded state (R231). -/
def State.load (s : State) (rom : List Byte) : Except LoadError State :=
  if rom.length > Config.romMax then .error .programTooLarge else .ok (s.loaded rom)

/-- The state after `Load(rom)`: a failed Load leaves it unchanged, the status included (R233). -/
def State.afterLoad (s : State) (rom : List Byte) : State :=
  match s.load rom with
  | .ok t => t
  | .error _ => s

/-! ## Observations: functions of the state, with no side effect -/

/-- `SnapshotDisplay` (R220). -/
def State.snapshotDisplay (s : State) : Display := s.disp

/-- `SoundActive = (ST > 0)` (R217). -/
def State.soundActive (s : State) : Bool := decide (s.st.toNat > 0)

/-- `DisplayChanged` (R221). -/
def State.displayChanged (s : State) : Bool := s.changed

/-- `Status` (R222). -/
def State.observedStatus (s : State) : Status := s.status

end Sys2Proof.Machine
end

