-- ==== Sys2Proof/Machine/Flags.lean ====
section
/-! DEFINITION. The values written to VF, the only flag of the hardware (10_state.md R22, R34), and the order in which an
ALU instruction writes its flag and its result (41_alu.md R125). -/

namespace Sys2Proof.Machine

/-- A flag is stored as a full byte, 0x00 or 0x01 (R22). -/
def flagByte (b : Bool) : Byte := if b then 1 else 0

/-- The carry of `8xy4`: the unsigned sum exceeds 255 (R126). -/
def carryFlag (a b : Byte) : Byte := flagByte (decide (a.toNat + b.toNat > 255))

/-- The flag of `8xy5` and `8xy7`: strictly greater (R127, R129). -/
def greaterFlag (a b : Byte) : Byte := flagByte (decide (a.toNat > b.toNat))

/-- The bit `8xy6` shifts out, bit 0 (R128). -/
def lowBitFlag (a : Byte) : Byte := a &&& 1

/-- The bit `8xyE` shifts out, bit 7 (R130). -/
def highBitFlag (a : Byte) : Byte := (a >>> 7) &&& 1

/-- The register of the flag, VF (R22). -/
def flagReg : Reg := 15

/-- Write the flag and then the result: with `x = F` the result stays (R125). -/
def State.writeFlagAndResult (s : State) (x : Reg) (flag result : Byte) : State :=
  (s.writeV flagReg flag).writeV x result

end Sys2Proof.Machine
end

