-- ==== Sys2Proof/Machine/Alu.lean ====
section
/-! DEFINITION. Register loads, the ALU and the random draw (41_alu.md). Operands are read before anything is written
(30_encoding.md R83); byte arithmetic wraps modulo 256 (R119). -/

namespace Sys2Proof.Machine

/-- `6xkk` LD Vx, kk (R120). -/
def execLdImm (x : Reg) (kk : Byte) (s : State) : Result := .next (s.writeV x kk).advance

/-- `7xkk` ADD Vx, kk; no flag is written (R121). -/
def execAddImm (x : Reg) (kk : Byte) (s : State) : Result := .next (s.writeV x (s.readV x + kk)).advance

/-- `8xy0` LD Vx, Vy (R122). -/
def execLdReg (x y : Reg) (s : State) : Result := .next (s.writeV x (s.readV y)).advance

/-- `8xy1` OR Vx, Vy; no flag is written (R123). -/
def execOrReg (x y : Reg) (s : State) : Result := .next (s.writeV x (s.readV x ||| s.readV y)).advance

/-- `8xy2` AND Vx, Vy; no flag is written (R124). -/
def execAndReg (x y : Reg) (s : State) : Result := .next (s.writeV x (s.readV x &&& s.readV y)).advance

/-- `8xy3` XOR Vx, Vy; no flag is written (R132). -/
def execXorReg (x y : Reg) (s : State) : Result := .next (s.writeV x (s.readV x ^^^ s.readV y)).advance

/-- `8xy4` ADD Vx, Vy with carry in VF (R126). -/
def execAddReg (x y : Reg) (s : State) : Result :=
  .next (s.writeFlagAndResult x (carryFlag (s.readV x) (s.readV y)) (s.readV x + s.readV y)).advance

/-- `8xy5` SUB Vx, Vy; VF is 1 when Vx is strictly greater (R127). -/
def execSubReg (x y : Reg) (s : State) : Result :=
  .next (s.writeFlagAndResult x (greaterFlag (s.readV x) (s.readV y)) (s.readV x - s.readV y)).advance

/-- `8xy6` SHR Vx; `y` is ignored (R128). -/
def execShr (x _y : Reg) (s : State) : Result :=
  .next (s.writeFlagAndResult x (lowBitFlag (s.readV x)) (s.readV x >>> 1)).advance

/-- `8xy7` SUBN Vx, Vy; VF is 1 when Vy is strictly greater (R129). -/
def execSubnReg (x y : Reg) (s : State) : Result :=
  .next (s.writeFlagAndResult x (greaterFlag (s.readV y) (s.readV x)) (s.readV y - s.readV x)).advance

/-- `8xyE` SHL Vx; `y` is ignored (R130). -/
def execShl (x _y : Reg) (s : State) : Result :=
  .next (s.writeFlagAndResult x (highBitFlag (s.readV x)) (s.readV x <<< 1)).advance

/-- `Cxkk` with the draw `r` (R131). -/
def State.maskedDraw (s : State) (x : Reg) (kk r : Byte) : State :=
  { (s.writeV x (r &&& kk)).advance with draws := s.draws + 1 }

/-- `Cxkk` RND Vx, kk: the draw is the free value of the next draw number (R131, assumption log 2). -/
def execRnd (x : Reg) (kk : Byte) (s : State) : Result :=
  .next (s.maskedDraw x kk (Config.randomByte s.draws))

end Sys2Proof.Machine
end

