-- ==== Sys2Proof/Machine/Display.lean ====
section
/-! DEFINITION. Clearing the display and drawing a sprite (43_display.md). -/

namespace Sys2Proof.Machine

/-- `00E0` CLS; VF is not written (R160). -/
def execCls (s : State) : Result := .next { s with disp := Display.allClear }.advance

/-- The display and the collision flag after the sprite of `n` rows at `I` is drawn at `(V[x], V[y])` (R161). -/
def State.drawn (s : State) (x y : Reg) (n : Fin 16) : Display × Bool :=
  Display.togglePixels s.disp false
    (spritePixels (s.readV x) (s.readV y) 0 (s.loadBytes s.dataAddr n.val))

/-- `Dxyn` DRW Vx, Vy, n: the coordinates are read before VF is written, `n = 0` draws nothing and clears VF (R161). -/
def execDrw (x y : Reg) (n : Fin 16) (s : State) : Result :=
  .next ({ s with disp := (s.drawn x y n).1 }.writeV flagReg (flagByte (s.drawn x y n).2)).advance

end Sys2Proof.Machine
end

