-- ==== Sys2Proof/Machine/Flow.lean ====
section
/-! DEFINITION. Control flow (40_flow.md): the no-op, return, jumps, call, and the skips on registers. -/

namespace Sys2Proof.Machine

/-- `0nnn` SYS, a no-op whose operand is ignored (R100). -/
def execSys (_nnn : Addr) (s : State) : Result := .next s.advance

/-- `00EE` RET: pop into PC, with no advance after it; StackUnderflow when the stack is empty (R101, R205). -/
def execRet (s : State) : Result :=
  match s.pop? with
  | none => .next (s.raise .stackUnderflow (encode .ret))
  | some (target, t) => .next (t.jumpTo target)

/-- `1nnn` JP (R102). -/
def execJp (nnn : Addr) (s : State) : Result := .next (s.jumpTo (addrWord nnn))

/-- `2nnn` CALL: push the address after the CALL, then jump; StackOverflow when 16 entries are in use (R103, R204). -/
def execCall (nnn : Addr) (s : State) : Result :=
  match s.push? (s.pc + 2) with
  | none => .next (s.raise .stackOverflow (encode (.call nnn)))
  | some t => .next (t.jumpTo (addrWord nnn))

/-- `Bnnn` JP V0 (R105). -/
def execJpV0 (nnn : Addr) (s : State) : Result := .next (s.jumpTo (byteWord (s.readV 0) + addrWord nnn))

/-- `3xkk` SE Vx, kk (R106). -/
def execSeImm (x : Reg) (kk : Byte) (s : State) : Result := .next (s.skipIf (s.readV x == kk))

/-- `4xkk` SNE Vx, kk (R107). -/
def execSneImm (x : Reg) (kk : Byte) (s : State) : Result := .next (s.skipIf (s.readV x != kk))

/-- `5xy0` SE Vx, Vy (R108). -/
def execSeReg (x y : Reg) (s : State) : Result := .next (s.skipIf (s.readV x == s.readV y))

/-- `9xy0` SNE Vx, Vy (R109). -/
def execSneReg (x y : Reg) (s : State) : Result := .next (s.skipIf (s.readV x != s.readV y))

end Sys2Proof.Machine
end

