-- ==== Sys2Proof/Machine/IndexMemory.lean ====
section
/-! DEFINITION. The index register, the decimal digits, and the register block store and load (42_index_memory.md).
None of them but the first three writes `I` (R147). -/

namespace Sys2Proof.Machine

/-- `Annn` LD I, nnn (R140). -/
def execLdI (nnn : Addr) (s : State) : Result := .next { s with i := addrWord nnn }.advance

/-- `Fx1E` ADD I, Vx, modulo 65536; no flag is written (R141). -/
def execAddIVx (x : Reg) (s : State) : Result := .next { s with i := s.i + byteWord (s.readV x) }.advance

/-- `Fx29` LD F, Vx (R142). -/
def execLdFVx (x : Reg) (s : State) : Result := .next { s with i := glyphAddr (s.readV x) }.advance

/-- `Fx33` LD B, Vx: the three decimal digits at `I`, `I + 1`, `I + 2` (R144). -/
def execLdBVx (x : Reg) (s : State) : Result :=
  .next (s.storeBytes s.dataAddr (decimalDigits (s.readV x))).advance

/-- `Fx55` LD [I], Vx: `V[0..x]` at `I..I+x` (R145). -/
def execLdMemVx (x : Reg) (s : State) : Result := .next (s.storeBytes s.dataAddr (s.regsUpTo x)).advance

/-- `Fx65` LD Vx, [I]: `V[0..x]` from `I..I+x` (R146). -/
def execLdVxMem (x : Reg) (s : State) : Result := .next (s.loadRegs x s.dataAddr).advance

end Sys2Proof.Machine
end

