-- ==== Sys2Proof/Machine/KeypadTimers.lean ====
section
/-! DEFINITION. The keypad and timer instructions (44_keypad_timers.md). -/

namespace Sys2Proof.Machine

/-- `Ex9E` SKP Vx: skip when the key is pressed at this Step (R170, R173). -/
def execSkp (x : Reg) (s : State) : Result := .next (s.skipIf (s.keyPressed (keyIndex (s.readV x))))

/-- `ExA1` SKNP Vx: skip when the key is not pressed at this Step (R171, R173). -/
def execSknp (x : Reg) (s : State) : Result := .next (s.skipIf (!(s.keyPressed (keyIndex (s.readV x)))))

/-- `Fx07` LD Vx, DT (R172). -/
def execLdVxDt (x : Reg) (s : State) : Result := .next (s.writeV x s.dt).advance

/-- `Fx0A` LD Vx, K: with no key pressed the Step changes nothing and the next Step fetches the same instruction; else
the least pressed key is taken (R174). -/
def execLdVxK (x : Reg) (s : State) : Result :=
  match s.leastKey with
  | none => .next s
  | some k => .next (s.writeV x (BitVec.ofNat 8 k.val)).advance

/-- `Fx15` LD DT, Vx (R175). -/
def execLdDtVx (x : Reg) (s : State) : Result := .next { s with dt := s.readV x }.advance

/-- `Fx18` LD ST, Vx (R176). -/
def execLdStVx (x : Reg) (s : State) : Result := .next { s with st := s.readV x }.advance

end Sys2Proof.Machine
end

