-- ==== Sys2Proof/Machine/Executor.lean ====
section
/-! DEFINITION. One Step of the executor (30_encoding.md R81). -/

namespace Sys2Proof.Machine

/-- Record after an instruction whether the display changed (R81, R221). -/
def withDisplayHint (before : State) : Result → Result
  | .next after => .next (State.markChanged before after)
  | .fault r => .fault r
  | .refused r => .refused r

/-- Fetch, decode and execute, while running: a word that is no instruction raises UnknownOpcode (R81, R206). -/
def executeFetched (s : State) : Result :=
  match decodeWord s.fetchWord with
  | .error _ => .next (s.raise .unknownOpcode s.fetchWord)
  | .ok i => exec i s

/-- `Step`: in status HALTED nothing changes (R203); else one instruction, and then the display hint (R81). -/
def executorStep (s : State) : Result :=
  match s.status with
  | .halted _ _ _ => .next s
  | .running => withDisplayHint s (executeFetched s)

end Sys2Proof.Machine
end

