-- ==== Sys2Proof/Machine/Step.lean ====
section
/-! DEFINITION. One step of the machine: the next event of the environment, applied to the core (60_exceptions.md R215). -/

namespace Sys2Proof.Machine

/-- Take the environment's next event and apply it; one event is one atomic state change (R10, R215). -/
def step (s : State) : Host.Outcome State Fault Refusal :=
  match s.takeEvent with
  | (.step, t) => executorStep t
  | (.tick, t) => .next t.tick
  | (.keyDown k, t) => .next (t.keyDown k)
  | (.keyUp k, t) => .next (t.keyUp k)
  | (.load rom, t) => .next (t.afterLoad rom)
  | (.construct, t) => .next t.construct

/-- The state whose very next step runs the instruction of the table word `w`: the word stands at `PC`, the core is
running, and the environment has nothing scheduled before its next Step (assumption log 4). -/
def State.withFetchWord (s : State) (nbits w : Nat) : State :=
  { s.placeWord (tableWord nbits w) with status := .running, schedule := [] }

end Sys2Proof.Machine
end

