-- ==== Sys2Proof/Safety.lean ====
section
/-! DEFINITION. The terms the statements use: when a Step is next, what an instruction may write (its frame), the invariant
of the machine, and the opcode map of 30_encoding.md R86 as a table. -/

namespace Sys2Proof.Machine

/-! ## Events -/

/-- The environment's next event is a Step, and `t` is the state with it taken from the schedule (assumption log 1). -/
def StepIsNext (s t : State) : Prop :=
  (s.schedule = [] ∧ t = s) ∨ ∃ rest, s.schedule = .step :: rest ∧ t = { s with schedule := rest }

/-! ## Frames -/

/-- What an instruction may write besides the program counter. -/
structure Written where
  /-- registers of the V file -/
  regs : Reg → Prop := fun _ => False
  /-- memory cells, by cell number 0 to 4095 -/
  cells : Nat → Prop := fun _ => False
  /-- call-stack slots -/
  slots : Fin 16 → Prop := fun _ => False
  /-- `I` -/
  index : Prop := False
  /-- `SP` -/
  sp : Prop := False
  /-- the display -/
  display : Prop := False
  /-- `DT` -/
  dt : Prop := False
  /-- `ST` -/
  st : Prop := False
  /-- the draw number -/
  draws : Prop := False

/-- From `s` to `t` nothing changes but the program counter and what `w` names: every register, every memory byte as it
reads at every address, every stack slot, `I`, `SP`, the display, the timers, and always the keys, the status, the display
hint, the font parameter and the schedule. -/
def Keeps (w : Written) (s t : State) : Prop :=
  (∀ r, ¬ w.regs r → t.readV r = s.readV r) ∧
  (∀ a, ¬ w.cells (a % 4096) → t.memRead a = s.memRead a) ∧
  (∀ j : Fin 16, ¬ w.slots j → t.stack[j] = s.stack[j]) ∧
  (¬ w.index → t.i = s.i) ∧
  (¬ w.sp → t.sp = s.sp) ∧
  (¬ w.display → t.disp = s.disp) ∧
  (¬ w.dt → t.dt = s.dt) ∧
  (¬ w.st → t.st = s.st) ∧
  (¬ w.draws → t.draws = s.draws) ∧
  t.key = s.key ∧ t.status = s.status ∧ t.changed = s.changed ∧
  t.mem.font = s.mem.font ∧ t.schedule = s.schedule

/-- The `n` memory cells that stores at `a`, `a + 1`, … reach (20_memory.md R54). -/
def CellsFrom (a n : Nat) (cell : Nat) : Prop := ∃ k, k < n ∧ cell = (a + k) % 4096

/-- The advance, `PC <- (PC + 2) mod 65536` (00_scope.md R9, 10_state.md R26). -/
def Advanced (s t : State) : Prop := t.pc.toNat = (s.pc.toNat + 2) % 65536

/-- The end of a skip: 4 when the condition holds, else 2 (10_state.md R26). -/
def SkippedIf (c : Prop) (s t : State) : Prop :=
  (c → t.pc.toNat = (s.pc.toNat + 4) % 65536) ∧ (¬ c → t.pc.toNat = (s.pc.toNat + 2) % 65536)

/-- A set bit of the sprite of `n` rows at `I`, drawn at `(V[x], V[y])`, lands on the pixel `(cx, cy)` (43_display.md R161,
R162). -/
def SpriteCovers (s : State) (x y : Reg) (n : Fin 16) (p : Pixel) : Prop :=
  ∃ row col, row < n.val ∧ col < 8 ∧ (s.memRead (s.dataAddr + row)).getLsbD (7 - col) = true ∧
    p.1.val = ((s.readV x).toNat + col) % 64 ∧ p.2.val = ((s.readV y).toNat + row) % 32

/-! ## The invariant -/

/-- The condition under which a fault of a kind is raised (60_exceptions.md R204, R205, R206). -/
def FaultCause (kind : FaultKind) (op : Word) (sp : Fin 17) : Prop :=
  match kind with
  | .stackOverflow => op.toNat / 4096 = 2 ∧ sp.val = 16
  | .stackUnderflow => op = 0x00EE ∧ sp.val = 0
  | .unknownOpcode => decodeWord op = .error (.unknownOpcode op)

/-- While halted, the record names the word that still stands at `PC` and the address in `PC`, its cause still holds, and
the display hint is clear (R201, R203). -/
def State.RecordHolds (s : State) : Prop :=
  match s.status with
  | .running => True
  | .halted kind op pc => op = s.fetchWord ∧ pc = s.pc ∧ s.changed = false ∧ FaultCause kind op s.sp

/-- The invariant: memory in its canonical form, and a halt record that is true of the state. -/
def State.Inv (s : State) : Prop := s.mem.wf ∧ s.RecordHolds

/-! ## The opcode map -/

/-- The opcode of number `n` decodes to `i`. -/
def DecodesTo (n : Nat) (i : Instr) : Prop := decodeWord (BitVec.ofNat 16 n) = .ok i

/-- A row of R86: an opcode `op` selects it when `op & mask = pattern`, earlier rows first (R87). -/
structure OpcodeRow where
  number : Nat
  mask : Word
  pattern : Word

/-- Rows 1 to 10 of R86. -/
def opcodeRows1 : List OpcodeRow :=
  [⟨1, 0xFFFF, 0x00E0⟩, ⟨2, 0xFFFF, 0x00EE⟩, ⟨3, 0xF000, 0x0000⟩, ⟨4, 0xF000, 0x1000⟩, ⟨5, 0xF000, 0x2000⟩,
   ⟨6, 0xF000, 0x3000⟩, ⟨7, 0xF000, 0x4000⟩, ⟨8, 0xF00F, 0x5000⟩, ⟨9, 0xF000, 0x6000⟩, ⟨10, 0xF000, 0x7000⟩]

/-- Rows 11 to 20 of R86. -/
def opcodeRows2 : List OpcodeRow :=
  [⟨11, 0xF00F, 0x8000⟩, ⟨12, 0xF00F, 0x8001⟩, ⟨13, 0xF00F, 0x8002⟩, ⟨14, 0xF00F, 0x8003⟩, ⟨15, 0xF00F, 0x8004⟩,
   ⟨16, 0xF00F, 0x8005⟩, ⟨17, 0xF00F, 0x8006⟩, ⟨18, 0xF00F, 0x8007⟩, ⟨19, 0xF00F, 0x800E⟩, ⟨20, 0xF00F, 0x9000⟩]

/-- Rows 21 to 35 of R86. -/
def opcodeRows3 : List OpcodeRow :=
  [⟨21, 0xF000, 0xA000⟩, ⟨22, 0xF000, 0xB000⟩, ⟨23, 0xF000, 0xC000⟩, ⟨24, 0xF000, 0xD000⟩, ⟨25, 0xF0FF, 0xE09E⟩,
   ⟨26, 0xF0FF, 0xE0A1⟩, ⟨27, 0xF0FF, 0xF007⟩, ⟨28, 0xF0FF, 0xF00A⟩, ⟨29, 0xF0FF, 0xF015⟩, ⟨30, 0xF0FF, 0xF018⟩,
   ⟨31, 0xF0FF, 0xF01E⟩, ⟨32, 0xF0FF, 0xF029⟩, ⟨33, 0xF0FF, 0xF033⟩, ⟨34, 0xF0FF, 0xF055⟩, ⟨35, 0xF0FF, 0xF065⟩]

/-- The opcode map of R86, in its order. -/
def opcodeMap : List OpcodeRow := opcodeRows1 ++ opcodeRows2 ++ opcodeRows3

/-- The number of the row a word selects: the first that matches (R86, R87). -/
def selectedRow (op : Word) : Option Nat :=
  (opcodeMap.find? fun row => op &&& row.mask == row.pattern).map OpcodeRow.number

/-- The row of R86 an instruction stands for. -/
def rowNumber : Instr → Nat
  | .cls => 1
  | .ret => 2
  | .sys _ => 3
  | .jp _ => 4
  | .call _ => 5
  | .seImm _ _ => 6
  | .sneImm _ _ => 7
  | .seReg _ _ => 8
  | .ldImm _ _ => 9
  | .addImm _ _ => 10
  | .ldReg _ _ => 11
  | .orReg _ _ => 12
  | .andReg _ _ => 13
  | .xorReg _ _ => 14
  | .addReg _ _ => 15
  | .subReg _ _ => 16
  | .shr _ _ => 17
  | .subnReg _ _ => 18
  | .shl _ _ => 19
  | .sneReg _ _ => 20
  | .ldI _ => 21
  | .jpV0 _ => 22
  | .rnd _ _ => 23
  | .drw _ _ _ => 24
  | .skp _ => 25
  | .sknp _ => 26
  | .ldVxDt _ => 27
  | .ldVxK _ => 28
  | .ldDtVx _ => 29
  | .ldStVx _ => 30
  | .addIVx _ => 31
  | .ldFVx _ => 32
  | .ldBVx _ => 33
  | .ldMemVx _ => 34
  | .ldVxMem _ => 35

end Sys2Proof.Machine

/-! ## Which instruction may write which element -/

namespace Sys2Proof

open Machine

/-- The registers an instruction may write (10_state.md R20, R22). -/
def Instr.writesReg (i : Instr) (r : Reg) : Prop :=
  match i with
  | .ldImm x _ | .addImm x _ | .ldReg x _ | .orReg x _ | .andReg x _ | .xorReg x _ | .rnd x _ => r = x
  | .addReg x _ | .subReg x _ | .shr x _ | .subnReg x _ | .shl x _ => r = x ∨ r = 15
  | .drw _ _ _ => r = 15
  | .ldVxDt x | .ldVxK x => r = x
  | .ldVxMem x => r ≤ x
  | .cls | .ret | .sys _ | .jp _ | .call _ | .seImm _ _ | .sneImm _ _ | .seReg _ _ | .sneReg _ _ | .ldI _ | .jpV0 _ | .skp _
  | .sknp _ | .ldDtVx _ | .ldStVx _ | .addIVx _ | .ldFVx _ | .ldBVx _ | .ldMemVx _ => False

/-- The instruction writes VF as a flag that is still there afterwards: one of the six of 10_state.md R22, and for the ALU
ones the result does not go to VF (41_alu.md R125). -/
def Instr.leavesFlag (i : Instr) : Prop :=
  (∃ x y, x ≠ 15 ∧ (i = .addReg x y ∨ i = .subReg x y ∨ i = .shr x y ∨ i = .subnReg x y ∨ i = .shl x y)) ∨
    ∃ x y n, i = .drw x y n

/-- The six skips (10_state.md R34). -/
def Instr.isSkip (i : Instr) : Prop :=
  (∃ x kk, i = .seImm x kk ∨ i = .sneImm x kk) ∨ (∃ x y, i = .seReg x y ∨ i = .sneReg x y) ∨ ∃ x, i = .skp x ∨ i = .sknp x

/-- The instructions that set PC explicitly (30_encoding.md R84). -/
def Instr.setsPc (i : Instr) : Prop := i = .ret ∨ ∃ nnn, i = .jp nnn ∨ i = .call nnn ∨ i = .jpV0 nnn

/-- What each instruction may write besides the program counter, from state `s`: the "written by" column of R20, read the
other way round. -/
def Instr.mayWrite (i : Instr) (s : State) : Written where
  regs := Instr.writesReg i
  cells c := (∃ x, i = .ldBVx x ∧ CellsFrom s.dataAddr 3 c) ∨ ∃ x, i = .ldMemVx x ∧ CellsFrom s.dataAddr (x.val + 1) c
  slots j := (∃ nnn, i = .call nnn) ∧ j.val = s.sp.val
  index := (∃ nnn, i = .ldI nnn) ∨ (∃ x, i = .addIVx x) ∨ ∃ x, i = .ldFVx x
  sp := i = .ret ∨ ∃ nnn, i = .call nnn
  display := i = .cls ∨ ∃ x y n, i = .drw x y n
  dt := ∃ x, i = .ldDtVx x
  st := ∃ x, i = .ldStVx x
  draws := ∃ x kk, i = .rnd x kk

end Sys2Proof
end

