-- ==== Sys2Proof/Certificates/Slice0/Obligations.lean ====
section
/-! DEFINITION. The statements about the machine, from the numbered rules of spec/. Each docstring names the rule or the
spec's sentence the statement formalises; a clause that rests on a decision the spec marks as its own (D1 to D26 of
92_eei_decisions.md), or on one of the model's, names it and the assumption log's entry. -/

open Sys2Proof Sys2Proof.Machine

/-! ## Encoding -/

/-- No bit of a well-formed instruction's encoding is dropped (30_encoding.md sections 3 and 4; that Instr keeps the fields
an instruction ignores is the model's own choice, log 22). -/
def Obligations.DecodeAfterEncodeGivesTheInstruction : Prop :=
  ∀ i : Instr, i.wellFormed = true → decodeWord (encode i) = .ok i

/-- Each legal word has one meaning: what it decodes to is well formed and encodes to it (30_encoding.md sections 3, 4).
That the word comes back whole rests on Instr keeping the fields an instruction ignores, `nnn` of `0nnn` and `y` of the
shifts, the model's own choice, log 22; which words of families 5 and 9 are legal is the spec's decision D6, log 10. -/
def Obligations.EncodeAfterDecodeGivesTheWord : Prop :=
  ∀ (op : Word) (i : Instr), decodeWord op = .ok i → i.wellFormed = true ∧ encode i = op

/-- R86: a word selects the first row whose mask and match fit, and decodes to an instruction of that row; a word that fits
no row decodes to none. -/
def Obligations.DecoderSelectsTheRowOfTheOpcodeMap : Prop :=
  ∀ op : Word, selectedRow op =
    match decodeWord op with
    | .ok i => some (rowNumber i)
    | .error _ => none

/-- The illegal words are exactly those of R88's table (the strict reading of families 5 and 9 is the spec's decision D6,
log 10). -/
def Obligations.IllegalWordsAreExactlyTheListedOnes : Prop :=
  ∀ op : Word, decodeWord op = .error (.unknownOpcode op) ↔
    (op.toNat / 4096 = 5 ∧ op.toNat % 16 ≠ 0) ∨
    (op.toNat / 4096 = 8 ∧ (8 ≤ op.toNat % 16 ∧ op.toNat % 16 ≤ 13 ∨ op.toNat % 16 = 15)) ∨
    (op.toNat / 4096 = 9 ∧ op.toNat % 16 ≠ 0) ∨
    (op.toNat / 4096 = 14 ∧ op.toNat % 256 ≠ 0x9E ∧ op.toNat % 256 ≠ 0xA1) ∨
    (op.toNat / 4096 = 15 ∧ op.toNat % 256 ≠ 0x07 ∧ op.toNat % 256 ≠ 0x0A ∧ op.toNat % 256 ≠ 0x15 ∧
      op.toNat % 256 ≠ 0x18 ∧ op.toNat % 256 ≠ 0x1E ∧ op.toNat % 256 ≠ 0x29 ∧ op.toNat % 256 ≠ 0x33 ∧
      op.toNat % 256 ≠ 0x55 ∧ op.toNat % 256 ≠ 0x65)

/-- Words written out in the spec decode to what they stand for: the three words of the source (S11) and a word of each
family of formats from 95_test_vectors.md section 2.1 decode to their instructions, and 0x5AB1 to none. That 0x5AB1 is no
instruction is the spec's decision D6, log 10. -/
def Obligations.WordsOfTheSpecDecode : Prop :=
  decodeWord 0x6005 = .ok (.ldImm 0 0x05) ∧ decodeWord 0x7003 = .ok (.addImm 0 0x03) ∧
  decodeWord 0x1200 = .ok (.jp 0x200) ∧ decodeWord 0x00EE = .ok .ret ∧ decodeWord 0x00E1 = .ok (.sys 0x0E1) ∧
  decodeWord 0x8AB5 = .ok (.subReg 10 11) ∧ decodeWord 0xDAB5 = .ok (.drw 10 11 5) ∧
  decodeWord 0xEAA1 = .ok (.sknp 10) ∧ decodeWord 0xFA65 = .ok (.ldVxMem 10) ∧
  decodeWord 0x5AB1 = .error (.unknownOpcode 0x5AB1)

/-- The word fetched is `hi * 256 + lo`, `hi` at `PC` and `lo` at `PC + 1`, each address reduced modulo 4096 on its own
(20_memory.md section 3; the reduction is the spec's decision D2, log 7). -/
def Obligations.FetchReadsTwoBytesHighFirst : Prop :=
  ∀ s : State, s.fetchWord.toNat = (s.memRead (s.pc.toNat % 4096)).toNat * 256 +
    (s.memRead ((s.pc.toNat + 1) % 4096)).toNat

/-! ## The Step -/

/-- When the environment's next event is a Step, the core runs, and the word at `PC` decodes to `i`, the step is `exec i`
followed by the display hint (30_encoding.md section 2; the hint is the spec's decision D18, log 13, the event schedule is
the model's own, log 1). -/
def Obligations.StepExecutesTheDecodedInstruction : Prop :=
  ∀ (s t : State) (i : Instr), StepIsNext s t → t.status = .running → decodeWord t.fetchWord = .ok i →
    step s =
      match exec i t with
      | .next u => .next { u with changed := decide (u.disp ≠ t.disp) }
      | .fault r => .fault r
      | .refused r => .refused r

/-- A fetched word that is no instruction halts the core with its kind, value and address, and changes nothing else but the
hint (60_exceptions.md section 1; what the fault does to the state is the spec's decision D7, log 5). The schedule of events
is the model's own, log 1. -/
def Obligations.UnknownOpcodeHaltsPrecisely : Prop :=
  ∀ s t : State, StepIsNext s t → t.status = .running → (∀ i, decodeWord t.fetchWord ≠ .ok i) →
    step s = .next { t with status := .halted .unknownOpcode t.fetchWord t.pc, changed := false }

/-- A Step in status HALTED changes nothing (60_exceptions.md section 1; the spec's decision D7, log 5). The schedule of
events is the model's own, log 1. -/
def Obligations.HaltedStepChangesNothing : Prop :=
  ∀ (s t : State) (kind : FaultKind) (op pc : Word), StepIsNext s t → t.status = .halted kind op pc → step s = .next t

/-- The events of the environment that are not Steps reach the core as they are scheduled (60_exceptions.md section 3; the
schedule is the model's own, log 1). -/
def Obligations.StepAppliesTheScheduledEvent : Prop :=
  ∀ (s : State) (rest : List Event),
    (s.schedule = .tick :: rest → step s = .next (State.tick { s with schedule := rest })) ∧
    (∀ k, s.schedule = .keyDown k :: rest → step s = .next (State.keyDown { s with schedule := rest } k)) ∧
    (∀ k, s.schedule = .keyUp k :: rest → step s = .next (State.keyUp { s with schedule := rest } k)) ∧
    (∀ rom, s.schedule = .load rom :: rest → step s = .next (State.afterLoad { s with schedule := rest } rom)) ∧
    (s.schedule = .construct :: rest → step s = .next (State.construct { s with schedule := rest }))

/-! ## Control flow -/

/-- The no-op advances and does nothing else, whatever its operand (40_flow.md section 1; the advance's wrap: D3, log 9). -/
def Obligations.NoOpOnlyAdvances : Prop :=
  ∀ (nnn : Addr) (s : State), ∃ t, exec (.sys nnn) s = .next t ∧ Advanced s t ∧ Keeps {} s t

/-- R102: `1nnn` is `PC <- zext_16(nnn)`, any target, and nothing else. -/
def Obligations.JumpGoesToItsAddress : Prop :=
  (∀ nnn : Addr, DecodesTo (0x1000 + nnn.toNat) (.jp nnn)) ∧
  ∀ (nnn : Addr) (s : State), ∃ t, exec (.jp nnn) s = .next t ∧ t.pc.toNat = nnn.toNat ∧ Keeps {} s t

/-- R105: `Bnnn` is `PC <- zext_16(V[0]) + zext_16(nnn)`, a sum that never wraps, and nothing else. -/
def Obligations.JumpFromV0AddsV0 : Prop :=
  (∀ nnn : Addr, DecodesTo (0xB000 + nnn.toNat) (.jpV0 nnn)) ∧
  ∀ (nnn : Addr) (s : State), ∃ t, exec (.jpV0 nnn) s = .next t ∧
    t.pc.toNat = (s.readV 0).toNat + nnn.toNat ∧ Keeps {} s t

/-- CALL with room on the stack pushes the address after itself and jumps (40_flow.md section 2; the slot numbering is the
spec's decision D8, the wrap of the pushed address D3; logs 8 and 9). -/
def Obligations.CallPushesTheNextAddressAndJumps : Prop :=
  ∀ (nnn : Addr) (s : State), s.sp.val < 16 → ∃ t, exec (.call nnn) s = .next t ∧
    t.pc.toNat = nnn.toNat ∧ t.sp.val = s.sp.val + 1 ∧
    (∀ j : Fin 16, j.val = s.sp.val → (t.stack[j]).toNat = (s.pc.toNat + 2) % 65536) ∧
    Keeps { sp := True, slots := fun j => j.val = s.sp.val } s t

/-- RET with an entry on the stack pops the most recent one into PC, without an advance (40_flow.md section 2; the slot
numbering is the spec's decision D8, log 8). -/
def Obligations.ReturnPopsTheMostRecentAddress : Prop :=
  ∀ s : State, 0 < s.sp.val → ∃ t, exec .ret s = .next t ∧
    (∀ j : Fin 16, j.val + 1 = s.sp.val → t.pc = s.stack[j]) ∧ t.sp.val + 1 = s.sp.val ∧ Keeps { sp := True } s t

/-- CALL with 16 entries in use raises StackOverflow, RET with none raises StackUnderflow: the record holds the kind, the
opcode and the instruction's address, and nothing else changes but the hint (60_exceptions.md section 1; the effect of a
fault is the spec's decision D7, log 5, that SP counts the entries D8, log 8). -/
def Obligations.StackFaultsHaltPrecisely : Prop :=
  (∀ (nnn : Addr) (s : State), s.sp.val = 16 → ∃ op : Word, op.toNat = 0x2000 + nnn.toNat ∧
    exec (.call nnn) s = .next { s with status := .halted .stackOverflow op s.pc, changed := false }) ∧
  (∀ s : State, s.sp.val = 0 →
    exec .ret s = .next { s with status := .halted .stackUnderflow 0x00EE s.pc, changed := false })

/-- A RET executed with the stack a CALL left resumes at the address after the CALL, with the stack as it was before it
(40_flow.md section 2, the last-in first-out pair; the slot numbering is the spec's decision D8, log 8, the wrap of the
pushed address at 65536 D3, log 9). -/
def Obligations.ReturnResumesAfterTheCall : Prop :=
  ∀ (nnn : Addr) (s t t' : State), s.sp.val < 16 → exec (.call nnn) s = .next t → t'.sp = t.sp → t'.stack = t.stack →
    ∃ u, exec .ret t' = .next u ∧ u.pc.toNat = (s.pc.toNat + 2) % 65536 ∧ u.sp = s.sp ∧
      ∀ j : Fin 16, j.val < s.sp.val → u.stack[j] = s.stack[j]

/-- The skips on registers add 4 on their condition, else 2, and change nothing else (40_flow.md section 3; the wrap: D3,
log 9). -/
def Obligations.RegisterSkipsCompare : Prop :=
  (∀ (x : Reg) (kk : Byte) (s : State), ∃ t, exec (.seImm x kk) s = .next t ∧
    SkippedIf ((s.readV x).toNat = kk.toNat) s t ∧ Keeps {} s t) ∧
  (∀ (x : Reg) (kk : Byte) (s : State), ∃ t, exec (.sneImm x kk) s = .next t ∧
    SkippedIf ((s.readV x).toNat ≠ kk.toNat) s t ∧ Keeps {} s t) ∧
  (∀ (x y : Reg) (s : State), ∃ t, exec (.seReg x y) s = .next t ∧
    SkippedIf ((s.readV x).toNat = (s.readV y).toNat) s t ∧ Keeps {} s t) ∧
  (∀ (x y : Reg) (s : State), ∃ t, exec (.sneReg x y) s = .next t ∧
    SkippedIf ((s.readV x).toNat ≠ (s.readV y).toNat) s t ∧ Keeps {} s t)

/-! ## Register loads, ALU, random -/

/-- The two loads write their destination and nothing else (41_alu.md sections 2 and 3; the advance's wrap: D3, log 9). -/
def Obligations.LoadsWriteTheirRegister : Prop :=
  (∀ (x : Reg) (kk : Byte) (s : State), ∃ t, exec (.ldImm x kk) s = .next t ∧
    t.readV x = kk ∧ Advanced s t ∧ Keeps { regs := fun r => r = x } s t) ∧
  (∀ (x y : Reg) (s : State), ∃ t, exec (.ldReg x y) s = .next t ∧
    t.readV x = s.readV y ∧ Advanced s t ∧ Keeps { regs := fun r => r = x } s t)

/-- The immediate add wraps modulo 256 and writes no flag (41_alu.md section 2; the advance's wrap: D3, log 9). -/
def Obligations.AddImmediateWrapsWithoutAFlag : Prop :=
  ∀ (x : Reg) (kk : Byte) (s : State), ∃ t, exec (.addImm x kk) s = .next t ∧
    (t.readV x).toNat = ((s.readV x).toNat + kk.toNat) % 256 ∧ Advanced s t ∧ Keeps { regs := fun r => r = x } s t

/-- OR, AND and XOR act on each bit and write no flag (41_alu.md section 3; that VF is left alone is the spec's decision
D16, log 11). The wrap of PC is D3, log 9. -/
def Obligations.BitwiseInstructionsActOnEachBit : Prop :=
  (∀ (x y : Reg) (s : State), ∃ t, exec (.orReg x y) s = .next t ∧
    (∀ b, b < 8 → (t.readV x).getLsbD b = ((s.readV x).getLsbD b || (s.readV y).getLsbD b)) ∧
    Advanced s t ∧ Keeps { regs := fun r => r = x } s t) ∧
  (∀ (x y : Reg) (s : State), ∃ t, exec (.andReg x y) s = .next t ∧
    (∀ b, b < 8 → (t.readV x).getLsbD b = ((s.readV x).getLsbD b && (s.readV y).getLsbD b)) ∧
    Advanced s t ∧ Keeps { regs := fun r => r = x } s t) ∧
  (∀ (x y : Reg) (s : State), ∃ t, exec (.xorReg x y) s = .next t ∧
    (∀ b, b < 8 → (t.readV x).getLsbD b = ((s.readV x).getLsbD b ^^ (s.readV y).getLsbD b)) ∧
    Advanced s t ∧ Keeps { regs := fun r => r = x } s t)

/-- `8xy4`: the result is the sum modulo 256 for every register pair, and VF is the carry unless the result went there
(41_alu.md section 4; with `x = F` the result stays, the spec's decisions D4 and D5, log 12). The wrap of PC is D3, log 9.
-/
def Obligations.AddRegisterSetsCarry : Prop :=
  ∀ (x y : Reg) (s : State), ∃ t, exec (.addReg x y) s = .next t ∧
    (t.readV x).toNat = ((s.readV x).toNat + (s.readV y).toNat) % 256 ∧
    (x ≠ 15 → (t.readV 15).toNat = if (s.readV x).toNat + (s.readV y).toNat > 255 then 1 else 0) ∧
    Advanced s t ∧ Keeps { regs := fun r => r = x ∨ r = 15 } s t

/-- `8xy5`: the difference modulo 256, and VF is 1 exactly when Vx is strictly greater, unless the result went there
(41_alu.md section 4; the spec's decisions D4 and D5 for VF as an operand, log 12). The wrap of PC is D3, log 9. -/
def Obligations.SubtractSetsStrictlyGreaterFlag : Prop :=
  ∀ (x y : Reg) (s : State), ∃ t, exec (.subReg x y) s = .next t ∧
    ((t.readV x).toNat : Int) = (((s.readV x).toNat : Int) - (s.readV y).toNat) % 256 ∧
    (x ≠ 15 → (t.readV 15).toNat = if (s.readV x).toNat > (s.readV y).toNat then 1 else 0) ∧
    Advanced s t ∧ Keeps { regs := fun r => r = x ∨ r = 15 } s t

/-- `8xy7`: as `8xy5` with the operands exchanged (41_alu.md section 4; decisions D4 and D5, log 12). The wrap of PC is D3,
log 9. -/
def Obligations.ReverseSubtractSetsStrictlyGreaterFlag : Prop :=
  ∀ (x y : Reg) (s : State), ∃ t, exec (.subnReg x y) s = .next t ∧
    ((t.readV x).toNat : Int) = (((s.readV y).toNat : Int) - (s.readV x).toNat) % 256 ∧
    (x ≠ 15 → (t.readV 15).toNat = if (s.readV y).toNat > (s.readV x).toNat then 1 else 0) ∧
    Advanced s t ∧ Keeps { regs := fun r => r = x ∨ r = 15 } s t

/-- `8xy6` and `8xyE`: Vx is shifted by one, VF is the bit shifted out unless the result went there, and the `y` field has
no part in it (41_alu.md section 4; the shift source is fixed by the spec's decision D22, log 14; D4 and D5, log 12). The
wrap of PC is D3, log 9. -/
def Obligations.ShiftsMoveOneBitOutIntoTheFlag : Prop :=
  (∀ (x y : Reg) (s : State), ∃ t, exec (.shr x y) s = .next t ∧
    (t.readV x).toNat = (s.readV x).toNat / 2 ∧ (x ≠ 15 → (t.readV 15).toNat = (s.readV x).toNat % 2) ∧
    Advanced s t ∧ Keeps { regs := fun r => r = x ∨ r = 15 } s t) ∧
  (∀ (x y : Reg) (s : State), ∃ t, exec (.shl x y) s = .next t ∧
    (t.readV x).toNat = 2 * (s.readV x).toNat % 256 ∧ (x ≠ 15 → (t.readV 15).toNat = (s.readV x).toNat / 128) ∧
    Advanced s t ∧ Keeps { regs := fun r => r = x ∨ r = 15 } s t)

/-- `Cxkk`: Vx becomes the draw masked by `kk`, whatever the free draw is; each execution takes a draw of its own, and a bit
where `kk` has 0 is 0 (41_alu.md section 5; that the draw is free is the spec's decision D15, log 2). The wrap of PC is D3,
log 9. -/
def Obligations.RandomIsTheMaskedDraw : Prop :=
  ∀ (x : Reg) (kk : Byte) (s : State), ∃ t, exec (.rnd x kk) s = .next t ∧
    t.readV x = Config.randomByte s.draws &&& kk ∧ t.draws = s.draws + 1 ∧
    (∀ b, kk.getLsbD b = false → (t.readV x).getLsbD b = false) ∧
    Advanced s t ∧ Keeps { regs := fun r => r = x, draws := True } s t

/-- A flag that is still there after an instruction is 0 or 1 (10_state.md sections 2 and 9; which write comes last is the
spec's decision D5, log 12, the flag of a sprite with no rows D19, log 17). -/
def Obligations.FlagIsZeroOrOne : Prop :=
  ∀ (i : Instr) (s t : State), i.leavesFlag → exec i s = .next t → t.readV 15 = 0 ∨ t.readV 15 = 1

/-! ## Index register and memory -/

/-- `Annn` is `I <- zext_16(nnn)` (42_index_memory.md section 2; the advance's wrap: D3, log 9). -/
def Obligations.LoadIndexWritesTheAddress : Prop :=
  ∀ (nnn : Addr) (s : State), ∃ t, exec (.ldI nnn) s = .next t ∧
    t.i.toNat = nnn.toNat ∧ Advanced s t ∧ Keeps { index := True } s t

/-- `Fx1E` adds modulo 65536 with no flag, `Fx29` gives five times the whole byte (42_index_memory.md section 2; that no
flag is written is the spec's decision D16, that no digit is masked D25; logs 11 and 15). The wrap of PC is D3, log 9. -/
def Obligations.IndexArithmetic : Prop :=
  (∀ (x : Reg) (s : State), ∃ t, exec (.addIVx x) s = .next t ∧
    t.i.toNat = (s.i.toNat + (s.readV x).toNat) % 65536 ∧ Advanced s t ∧ Keeps { index := True } s t) ∧
  (∀ (x : Reg) (s : State), ∃ t, exec (.ldFVx x) s = .next t ∧
    t.i.toNat = 5 * (s.readV x).toNat ∧ Advanced s t ∧ Keeps { index := True } s t)

/-- `Fx33`: the hundreds, tens and ones digit at `I`, `I + 1`, `I + 2`; every other byte, and `I`, as before
(42_index_memory.md section 3; addresses modulo 4096: D2, log 7; `I` kept: D16, log 11; the advance's wrap: D3, log 9). -/
def Obligations.BcdStoresThreeDigits : Prop :=
  ∀ (x : Reg) (s : State), ∃ t, exec (.ldBVx x) s = .next t ∧
    (t.memRead s.dataAddr).toNat = (s.readV x).toNat / 100 ∧
    (t.memRead (s.dataAddr + 1)).toNat = (s.readV x).toNat / 10 % 10 ∧
    (t.memRead (s.dataAddr + 2)).toNat = (s.readV x).toNat % 10 ∧
    Advanced s t ∧ Keeps { cells := CellsFrom s.dataAddr 3 } s t

/-- The digits are below 10, the hundreds at most 2, and give the byte back (42_index_memory.md section 3). -/
def Obligations.DecimalDigitsGiveTheByteBack : Prop :=
  ∀ b : Byte, ∃ h t o : Byte, decimalDigits b = [h, t, o] ∧ h.toNat ≤ 2 ∧ t.toNat ≤ 9 ∧ o.toNat ≤ 9 ∧
    b.toNat = 100 * h.toNat + 10 * t.toNat + o.toNat

/-- `Fx55`: `V[0..x]` inclusive at `I..I+x`; every other byte, and `I`, as before (42_index_memory.md section 4; addresses
modulo 4096: D2, log 7; `I` kept: D16, log 11; the advance's wrap: D3, log 9). -/
def Obligations.BlockStoreCopiesTheRegisters : Prop :=
  ∀ (x : Reg) (s : State), ∃ t, exec (.ldMemVx x) s = .next t ∧
    (∀ r : Reg, r ≤ x → t.memRead (s.dataAddr + r.val) = s.readV r) ∧
    Advanced s t ∧ Keeps { cells := CellsFrom s.dataAddr (x.val + 1) } s t

/-- `Fx65`: `V[0..x]` inclusive from `I..I+x`; registers above `x`, and `I`, as before (42_index_memory.md section 4;
addresses modulo 4096: D2, log 7; `I` kept: D16, log 11; the advance's wrap: D3, log 9). -/
def Obligations.BlockLoadCopiesTheMemory : Prop :=
  ∀ (x : Reg) (s : State), ∃ t, exec (.ldVxMem x) s = .next t ∧
    (∀ r : Reg, r ≤ x → t.readV r = s.memRead (s.dataAddr + r.val)) ∧
    Advanced s t ∧ Keeps { regs := fun r => r ≤ x } s t

/-- A store into the instruction stream is what the next fetch reads, with no fence (20_memory.md section 5). Addresses
modulo 4096 are D2, log 7. -/
def Obligations.StoredInstructionIsFetchedNext : Prop :=
  ∀ (x : Reg) (s t : State), 1 ≤ x.val → s.dataAddr % 4096 = (s.pc.toNat + 2) % 4096 →
    exec (.ldMemVx x) s = .next t → t.fetchWord.toNat = (s.readV 0).toNat * 256 + (s.readV 1).toNat

/-- A read gives the last byte written to the cell its address reduces to, and other cells keep theirs (20_memory.md section
2; the reduction modulo 4096 is the spec's decision D2, log 7). -/
def Obligations.ReadAfterWriteByCell : Prop :=
  ∀ (s : State) (a c : Nat) (b : Byte),
    (c % 4096 = a % 4096 → (s.storeBytes a [b]).memRead c = b) ∧
    (c % 4096 ≠ a % 4096 → (s.storeBytes a [b]).memRead c = s.memRead c)

/-- The canonical form is worth its name: two memories in it, of one font, that read alike are one datum (the model's own
representation, log 16). -/
def Obligations.CanonicalMemoriesReadingAlikeAreEqual : Prop :=
  ∀ m n : Memory, m.wf → n.wf → m.font = n.font → (∀ a, m.read a = n.read a) → m = n

/-! ## Display -/

/-- CLS: all pixels are clear afterwards, and nothing else changes (43_display.md; the advance's wrap: D3, log 9). -/
def Obligations.ClearLeavesNoPixelSet : Prop :=
  ∀ s : State, ∃ t, exec .cls s = .next t ∧ (∀ p, Display.pixel t.disp p = false) ∧
    Advanced s t ∧ Keeps { display := True } s t

/-- `Dxyn` toggles exactly the pixels the sprite covers, each coordinate wrapping, and VF is 1 exactly when one of them was
set; `I`, memory and all else stay as before (43_display.md; the bit order is the spec's decision D12, the case of no rows
D19, log 17; reading VF first D4, log 12; `I` kept D16, log 11; the wrap of PC D3, log 9; addresses modulo 4096 D2, log 7).
-/
def Obligations.DrawTogglesTheCoveredPixels : Prop :=
  ∀ (x y : Reg) (n : Fin 16) (s : State), ∃ t, exec (.drw x y n) s = .next t ∧
    (∀ p, SpriteCovers s x y n p → Display.pixel t.disp p = !(Display.pixel s.disp p)) ∧
    (∀ p, ¬ SpriteCovers s x y n p → Display.pixel t.disp p = Display.pixel s.disp p) ∧
    (t.readV 15 = 0 ∨ t.readV 15 = 1) ∧
    (t.readV 15 = 1 ↔ ∃ p, SpriteCovers s x y n p ∧ Display.pixel s.disp p = true) ∧
    Advanced s t ∧ Keeps { display := True, regs := fun r => r = 15 } s t

/-- Drawing the same sprite twice at the same place restores the display; the second draw reports a collision exactly when a
set sprite bit landed on a clear pixel in the first (43_display.md, with the proviso of 90_conflicts.md C9: where a
coordinate is VF, the first draw must have left it as it was). Addresses modulo 4096 are D2, log 7; the bit order and the
case of no rows are D12 and D19, log 17; that the first draw keeps `I` is D16, log 11. -/
def Obligations.DrawingTwiceRestoresTheDisplay : Prop :=
  ∀ (x y : Reg) (n : Fin 16) (s t u : State), exec (.drw x y n) s = .next t → t.readV x = s.readV x →
    t.readV y = s.readV y → exec (.drw x y n) t = .next u → u.disp = s.disp ∧
      (u.readV 15 = 1 ↔ ∃ p, SpriteCovers s x y n p ∧ Display.pixel s.disp p = false)

/-- After a Step taken while running, `changed` says whether some pixel differs (60_exceptions.md section 5; the hint is the
spec's decision D18, log 13). The schedule of events is the model's own, log 1. -/
def Obligations.HintSaysWhetherAPixelDiffers : Prop :=
  ∀ s t u : State, StepIsNext s t → t.status = .running → step s = .next u →
    (u.displayChanged = true ↔ ∃ p, Display.pixel u.snapshotDisplay p ≠ Display.pixel t.disp p)

/-! ## Keypad and timers -/

/-- The key skips test the key the low nibble of Vx names (44_keypad_timers.md section 1; the low nibble is the spec's
decision D13, log 18). The wrap of PC is D3, log 9. -/
def Obligations.KeySkipsTestTheNamedKey : Prop :=
  (∀ (x : Reg) (s : State), ∃ t, exec (.skp x) s = .next t ∧
    (∀ k : Fin 16, k.val = (s.readV x).toNat % 16 → SkippedIf (s.key[k] = true) s t) ∧ Keeps {} s t) ∧
  (∀ (x : Reg) (s : State), ∃ t, exec (.sknp x) s = .next t ∧
    (∀ k : Fin 16, k.val = (s.readV x).toNat % 16 → SkippedIf (s.key[k] = false) s t) ∧ Keeps {} s t)

/-- The timer instructions move the count, and the sound-active output follows a write of ST at once (44_keypad_timers.md
section 2; the output: D20, log 20; the advance's wrap: D3, log 9). -/
def Obligations.TimerInstructionsMoveTheCount : Prop :=
  (∀ (x : Reg) (s : State), ∃ t, exec (.ldVxDt x) s = .next t ∧
    t.readV x = s.dt ∧ Advanced s t ∧ Keeps { regs := fun r => r = x } s t) ∧
  (∀ (x : Reg) (s : State), ∃ t, exec (.ldDtVx x) s = .next t ∧
    t.dt = s.readV x ∧ Advanced s t ∧ Keeps { dt := True } s t) ∧
  (∀ (x : Reg) (s : State), ∃ t, exec (.ldStVx x) s = .next t ∧
    t.st = s.readV x ∧ (t.soundActive = true ↔ (s.readV x).toNat ≠ 0) ∧ Advanced s t ∧ Keeps { st := True } s t)

/-- `Fx0A` with no key pressed changes nothing, and at least one key pressed it takes the least, as a byte
(44_keypad_timers.md section 3; level, least key and no wait for release are the spec's decisions D14 and D26, log 19). The
wrap of PC is D3, log 9. -/
def Obligations.WaitForKeyTakesTheLeastPressedKey : Prop :=
  (∀ (x : Reg) (s : State), (∀ k : Fin 16, s.key[k] = false) → exec (.ldVxK x) s = .next s) ∧
  (∀ (x : Reg) (s : State) (k : Fin 16), s.key[k] = true → (∀ j : Fin 16, j < k → s.key[j] = false) →
    ∃ t, exec (.ldVxK x) s = .next t ∧ (t.readV x).toNat = k.val ∧ Advanced s t ∧
      Keeps { regs := fun r => r = x } s t)

/-! ## Events -/

/-- R216: a Tick takes one from each timer that is above 0, leaves one that is 0, and changes nothing else. -/
def Obligations.TickDecrementsEachTimerAboveZero : Prop :=
  ∀ s : State, (s.tick).dt.toNat = s.dt.toNat - 1 ∧ (s.tick).st.toNat = s.st.toNat - 1 ∧
    s.tick = { s with dt := (s.tick).dt, st := (s.tick).st }

/-- The buzzer stops at the Tick that takes ST from 1 to 0, and sounds until then (60_exceptions.md section 4; the spec's
decision D20, log 20). The schedule of events is the model's own, log 1. -/
def Obligations.BuzzerSoundsUntilTheLastTick : Prop :=
  ∀ (s t : State) (rest : List Event), s.schedule = .tick :: rest → step s = .next t →
    (s.soundActive = true ↔ 1 ≤ s.st.toNat) ∧ (t.soundActive = true ↔ 2 ≤ s.st.toNat)

/-- R219: a key event writes its key's bit and changes nothing else. -/
def Obligations.KeyEventsWriteOneKey : Prop :=
  (∀ (s : State) (k : Fin 16), (s.keyDown k).key[k] = true ∧ (∀ j : Fin 16, j ≠ k → (s.keyDown k).key[j] = s.key[j]) ∧
    s.keyDown k = { s with key := (s.keyDown k).key }) ∧
  (∀ (s : State) (k : Fin 16), (s.keyUp k).key[k] = false ∧ (∀ j : Fin 16, j ≠ k → (s.keyUp k).key[j] = s.key[j]) ∧
    s.keyUp k = { s with key := (s.keyUp k).key })

/-- A Load of at most 3584 bytes rewrites all of memory (font, program, zeros), resets every register, the stack, the
timers, the display and the status, raises the display hint and leaves the keys (70_reset_and_hazards.md section 1; the
extent of the reset is the spec's decision D10, log 21, the zeros D9, log 6, the status D7, log 5, the hint D18, log 13).
That the draw number stays is the model's own choice, log 2, and that the font stays, a parameter carried in the memory, is
log 3. Addresses modulo 4096 are D2, log 7; the schedule of events is the model's own, log 1. -/
def Obligations.LoadResetsAllButTheKeys : Prop :=
  ∀ (s : State) (rom : List Byte) (rest : List Event), s.schedule = .load rom :: rest → rom.length ≤ 3584 →
    ∃ t, step s = .next t ∧ { s with schedule := rest }.load rom = .ok t ∧
      (∀ a, a % 4096 < 80 → t.memRead a = initialByte s.mem.font (a % 4096)) ∧
      (∀ (j : Nat) (h : j < rom.length), t.memRead (0x200 + j) = rom[j]) ∧
      (∀ a, 80 ≤ a % 4096 → a % 4096 < 0x200 ∨ 0x200 + rom.length ≤ a % 4096 → t.memRead a = 0) ∧
      (∀ r, t.readV r = 0) ∧ t.i = 0 ∧ t.pc = 0x200 ∧ t.sp = 0 ∧ (∀ j : Fin 16, t.stack[j] = 0) ∧
      (∀ p, Display.pixel t.disp p = false) ∧ t.dt = 0 ∧ t.st = 0 ∧ t.key = s.key ∧ t.status = .running ∧
      t.changed = true ∧ t.mem.font = s.mem.font ∧ t.draws = s.draws ∧ t.schedule = rest

/-- R231: a Load succeeds with at most 3584 bytes, none included, and reports ProgramTooLarge with more, in any status. -/
def Obligations.LoadAcceptsAtMost3584Bytes : Prop :=
  ∀ (s : State) (rom : List Byte),
    ((∃ t, s.load rom = .ok t) ↔ rom.length ≤ 4096 - 0x200) ∧
    (s.load rom = .error .programTooLarge ↔ 4096 - 0x200 < rom.length)

/-- R233: a Load of more than 3584 bytes reports ProgramTooLarge and changes no element, the status included. -/
def Obligations.OversizeLoadChangesNothing : Prop :=
  ∀ (s : State) (rom : List Byte), 3584 < rom.length → s.load rom = .error .programTooLarge ∧ s.afterLoad rom = s

/-- Construct gives every element its value after construction (70_reset_and_hazards.md section 1, 10_state.md section 10;
the zeros are the spec's decision D9, log 6, the status D7, log 5, the hint D18, log 13). That the draw number stays is the
model's own choice, log 2, and that the font is a parameter carried in the memory is log 3. Addresses modulo 4096 are D2,
log 7; the schedule of events is the model's own, log 1. -/
def Obligations.ConstructResetsEveryElement : Prop :=
  ∀ (s : State) (rest : List Event), s.schedule = .construct :: rest → ∃ t, step s = .next t ∧
    (∀ a, t.memRead a = initialByte s.mem.font (a % 4096)) ∧ (∀ r, t.readV r = 0) ∧ t.i = 0 ∧ t.pc = 0x200 ∧ t.sp = 0 ∧
    (∀ j : Fin 16, t.stack[j] = 0) ∧ (∀ p, Display.pixel t.disp p = false) ∧ t.dt = 0 ∧ t.st = 0 ∧
    (∀ k : Fin 16, t.key[k] = false) ∧ t.status = .running ∧ t.changed = false ∧ t.draws = s.draws ∧ t.schedule = rest

/-! ## The whole machine -/

/-- The machine never stops without a next state: each fault's effect is a next state, and every instruction has its meaning
(60_exceptions.md section 1, the closed list of errors; the effect of a fault is the spec's decision D7, log 5). -/
def Obligations.EveryStepHasANextState : Prop :=
  (∀ s : State, ∃ t, step s = .next t) ∧ ∀ (i : Instr) (s : State), ∃ t, exec i s = .next t

/-- An instruction that completes writes only what R20's table says it writes, and only RET and CALL can change the status,
by a fault that changes the status and clears the hint and changes nothing else (10_state.md section 1, 60_exceptions.md
section 1). That the listed effects are all effects is the spec's decision D16, log 11; what a fault does to the state is
D7, log 5; addresses modulo 4096 are D2, log 7; the slot a CALL writes is D8, log 8; the draw number is the model's own, log
2. -/
def Obligations.InstructionsWriteOnlyTheirElements : Prop :=
  ∀ (i : Instr) (s t : State), s.status = .running → exec i s = .next t →
    (t.status = .running → Keeps (i.mayWrite s) s t) ∧
    (t.status ≠ .running → (i = .ret ∨ ∃ nnn, i = .call nnn) ∧ t = { s with status := t.status, changed := false })

/-- Exactly one of these happens to PC in an executed instruction: it is set explicitly, or advanced by 2, or by 4 in a
skip; a waiting `Fx0A` and a faulting instruction leave it (30_encoding.md section 2, 10_state.md section 4). The wrap is
the spec's decision D3, log 9; that a fault leaves PC is D7, log 5; when `Fx0A` waits is D14, log 19. -/
def Obligations.ProgramCounterDiscipline : Prop :=
  ∀ (i : Instr) (s t : State), s.status = .running → exec i s = .next t →
    (t.status ≠ .running → t.pc = s.pc) ∧
    (t.status = .running → ¬ i.setsPc → Advanced s t ∨ (i.isSkip ∧ t.pc.toNat = (s.pc.toNat + 4) % 65536) ∨
      ((∃ x, i = .ldVxK x) ∧ (∀ k : Fin 16, s.key[k] = false) ∧ t = s))

/-- No instruction reads ST, and none reads the display hint: changing either changes nothing else in the result
(10_state.md section 9, 60_exceptions.md section 5; the hint is the spec's decision D18, log 13). -/
def Obligations.SoundTimerAndHintAreNotRead : Prop :=
  (∀ (i : Instr) (s t : State) (b : Byte), exec i s = .next t →
    ∃ u, exec i { s with st := b } = .next u ∧ u = { t with st := u.st }) ∧
  (∀ (i : Instr) (s t : State) (b : Bool), exec i s = .next t →
    ∃ u, exec i { s with changed := b } = .next u ∧ u = { t with changed := u.changed })

/-- Only a successful Load or a new construction leaves status HALTED; every other event keeps the record (60_exceptions.md
section 1; the spec's decision D7, log 5). The schedule of events is the model's own, log 1. -/
def Obligations.OnlyLoadOrConstructLeavesHalt : Prop :=
  ∀ s t : State, s.status ≠ .running → step s = .next t →
    t.status = s.status ∨ (t.status = .running ∧ ((∃ rest, s.schedule = .construct :: rest) ∨
      ∃ rom rest, s.schedule = .load rom :: rest ∧ rom.length ≤ 3584))

/-- The key latch is written by key events and construction alone: neither the executor nor Tick nor Load writes it
(10_state.md section 8; that Load leaves it is the spec's decision D10, log 21). The schedule of events is the model's own,
log 1. -/
def Obligations.OnlyKeyEventsAndConstructWriteKeys : Prop :=
  ∀ s t : State, step s = .next t → t.key ≠ s.key →
    ∃ rest, s.schedule = .construct :: rest ∨ ∃ k, s.schedule = .keyDown k :: rest ∨ s.schedule = .keyUp k :: rest

/-- Every step keeps the invariant: memory stays in its canonical form, and a halt record stays true of the state: it names
the word still at PC, the address still in PC, and a cause that still holds (20_memory.md section 1, 60_exceptions.md
section 1; the record is the spec's decision D7, log 5, that SP counts the entries D8, log 8, which words are illegal D6,
log 10, addresses modulo 4096 D2, log 7; the form of the memory is the model's own, log 16, and so is the schedule of
events, log 1). -/
def Obligations.StepKeepsTheInvariant : Prop :=
  ∀ s t : State, s.Inv → step s = .next t → t.Inv

/-- The state after reset meets the invariant (the form of the memory is the model's own, log 16; the status at reset is the
spec's decision D7, log 5). -/
def Obligations.ResetMeetsTheInvariant : Prop := State.reset.Inv

/-- The font parameter never changes and the draw number never falls (20_memory.md section 4; both fields are the model's
own, logs 2 and 3). -/
def Obligations.StepKeepsTheParameters : Prop :=
  ∀ s t : State, step s = .next t → t.mem.font = s.mem.font ∧ s.draws ≤ t.draws

/-- The values after Construct: PC at 0x200 and memory zero above the font (10_state.md section 10), the zeros of the spec's
decision D9 (log 6), the status of D7 (log 5) and the hint of D18 (log 13). Addresses modulo 4096 are D2, log 7. -/
def Obligations.ResetValues : Prop :=
  State.reset.pc = 0x200 ∧ (∀ a, 80 ≤ a % 4096 → State.reset.memRead a = 0) ∧ (∀ r, State.reset.readV r = 0) ∧
  State.reset.i = 0 ∧ State.reset.sp = 0 ∧ (∀ j : Fin 16, State.reset.stack[j] = 0) ∧
  (∀ p, Display.pixel State.reset.disp p = false) ∧ State.reset.dt = 0 ∧ State.reset.st = 0 ∧
  (∀ k : Fin 16, State.reset.key[k] = false) ∧ State.reset.status = .running ∧ State.reset.changed = false
end

