-- ==== Sys2Proof/Laws/State.lean ====
section
/-! SUPPORT. One lemma per field per update of the state, and what reading a register gives after an update. -/

namespace Sys2Proof.Machine

/-! ### writeV -/

@[simp] theorem State.writeV_mem (s : State) (r : Reg) (b : Byte) : (s.writeV r b).mem = s.mem := rfl
@[simp] theorem State.writeV_v (s : State) (r : Reg) (b : Byte) : (s.writeV r b).v = s.v.set r b := rfl
@[simp] theorem State.writeV_i (s : State) (r : Reg) (b : Byte) : (s.writeV r b).i = s.i := rfl
@[simp] theorem State.writeV_pc (s : State) (r : Reg) (b : Byte) : (s.writeV r b).pc = s.pc := rfl
@[simp] theorem State.writeV_sp (s : State) (r : Reg) (b : Byte) : (s.writeV r b).sp = s.sp := rfl
@[simp] theorem State.writeV_stack (s : State) (r : Reg) (b : Byte) : (s.writeV r b).stack = s.stack := rfl
@[simp] theorem State.writeV_disp (s : State) (r : Reg) (b : Byte) : (s.writeV r b).disp = s.disp := rfl
@[simp] theorem State.writeV_dt (s : State) (r : Reg) (b : Byte) : (s.writeV r b).dt = s.dt := rfl
@[simp] theorem State.writeV_st (s : State) (r : Reg) (b : Byte) : (s.writeV r b).st = s.st := rfl
@[simp] theorem State.writeV_key (s : State) (r : Reg) (b : Byte) : (s.writeV r b).key = s.key := rfl
@[simp] theorem State.writeV_status (s : State) (r : Reg) (b : Byte) : (s.writeV r b).status = s.status := rfl
@[simp] theorem State.writeV_changed (s : State) (r : Reg) (b : Byte) : (s.writeV r b).changed = s.changed := rfl
@[simp] theorem State.writeV_draws (s : State) (r : Reg) (b : Byte) : (s.writeV r b).draws = s.draws := rfl
@[simp] theorem State.writeV_schedule (s : State) (r : Reg) (b : Byte) : (s.writeV r b).schedule = s.schedule := rfl

/-! ### advance -/

@[simp] theorem State.advance_mem (s : State) : (s.advance).mem = s.mem := rfl
@[simp] theorem State.advance_v (s : State) : (s.advance).v = s.v := rfl
@[simp] theorem State.advance_i (s : State) : (s.advance).i = s.i := rfl
@[simp] theorem State.advance_pc (s : State) : (s.advance).pc = s.pc + 2 := rfl
@[simp] theorem State.advance_sp (s : State) : (s.advance).sp = s.sp := rfl
@[simp] theorem State.advance_stack (s : State) : (s.advance).stack = s.stack := rfl
@[simp] theorem State.advance_disp (s : State) : (s.advance).disp = s.disp := rfl
@[simp] theorem State.advance_dt (s : State) : (s.advance).dt = s.dt := rfl
@[simp] theorem State.advance_st (s : State) : (s.advance).st = s.st := rfl
@[simp] theorem State.advance_key (s : State) : (s.advance).key = s.key := rfl
@[simp] theorem State.advance_status (s : State) : (s.advance).status = s.status := rfl
@[simp] theorem State.advance_changed (s : State) : (s.advance).changed = s.changed := rfl
@[simp] theorem State.advance_draws (s : State) : (s.advance).draws = s.draws := rfl
@[simp] theorem State.advance_schedule (s : State) : (s.advance).schedule = s.schedule := rfl

/-! ### skipIf -/

@[simp] theorem State.skipIf_mem (s : State) (c : Bool) : (s.skipIf c).mem = s.mem := rfl
@[simp] theorem State.skipIf_v (s : State) (c : Bool) : (s.skipIf c).v = s.v := rfl
@[simp] theorem State.skipIf_i (s : State) (c : Bool) : (s.skipIf c).i = s.i := rfl
@[simp] theorem State.skipIf_pc (s : State) (c : Bool) : (s.skipIf c).pc = if c then s.pc + 4 else s.pc + 2 := rfl
@[simp] theorem State.skipIf_sp (s : State) (c : Bool) : (s.skipIf c).sp = s.sp := rfl
@[simp] theorem State.skipIf_stack (s : State) (c : Bool) : (s.skipIf c).stack = s.stack := rfl
@[simp] theorem State.skipIf_disp (s : State) (c : Bool) : (s.skipIf c).disp = s.disp := rfl
@[simp] theorem State.skipIf_dt (s : State) (c : Bool) : (s.skipIf c).dt = s.dt := rfl
@[simp] theorem State.skipIf_st (s : State) (c : Bool) : (s.skipIf c).st = s.st := rfl
@[simp] theorem State.skipIf_key (s : State) (c : Bool) : (s.skipIf c).key = s.key := rfl
@[simp] theorem State.skipIf_status (s : State) (c : Bool) : (s.skipIf c).status = s.status := rfl
@[simp] theorem State.skipIf_changed (s : State) (c : Bool) : (s.skipIf c).changed = s.changed := rfl
@[simp] theorem State.skipIf_draws (s : State) (c : Bool) : (s.skipIf c).draws = s.draws := rfl
@[simp] theorem State.skipIf_schedule (s : State) (c : Bool) : (s.skipIf c).schedule = s.schedule := rfl

/-! ### jumpTo -/

@[simp] theorem State.jumpTo_mem (s : State) (t : Word) : (s.jumpTo t).mem = s.mem := rfl
@[simp] theorem State.jumpTo_v (s : State) (t : Word) : (s.jumpTo t).v = s.v := rfl
@[simp] theorem State.jumpTo_i (s : State) (t : Word) : (s.jumpTo t).i = s.i := rfl
@[simp] theorem State.jumpTo_pc (s : State) (t : Word) : (s.jumpTo t).pc = t := rfl
@[simp] theorem State.jumpTo_sp (s : State) (t : Word) : (s.jumpTo t).sp = s.sp := rfl
@[simp] theorem State.jumpTo_stack (s : State) (t : Word) : (s.jumpTo t).stack = s.stack := rfl
@[simp] theorem State.jumpTo_disp (s : State) (t : Word) : (s.jumpTo t).disp = s.disp := rfl
@[simp] theorem State.jumpTo_dt (s : State) (t : Word) : (s.jumpTo t).dt = s.dt := rfl
@[simp] theorem State.jumpTo_st (s : State) (t : Word) : (s.jumpTo t).st = s.st := rfl
@[simp] theorem State.jumpTo_key (s : State) (t : Word) : (s.jumpTo t).key = s.key := rfl
@[simp] theorem State.jumpTo_status (s : State) (t : Word) : (s.jumpTo t).status = s.status := rfl
@[simp] theorem State.jumpTo_changed (s : State) (t : Word) : (s.jumpTo t).changed = s.changed := rfl
@[simp] theorem State.jumpTo_draws (s : State) (t : Word) : (s.jumpTo t).draws = s.draws := rfl
@[simp] theorem State.jumpTo_schedule (s : State) (t : Word) : (s.jumpTo t).schedule = s.schedule := rfl

/-! ### storeBytes -/

@[simp] theorem State.storeBytes_mem (s : State) (a : Nat) (bytes : List Byte) : (s.storeBytes a bytes).mem = s.mem.writeBytes a bytes := rfl
@[simp] theorem State.storeBytes_v (s : State) (a : Nat) (bytes : List Byte) : (s.storeBytes a bytes).v = s.v := rfl
@[simp] theorem State.storeBytes_i (s : State) (a : Nat) (bytes : List Byte) : (s.storeBytes a bytes).i = s.i := rfl
@[simp] theorem State.storeBytes_pc (s : State) (a : Nat) (bytes : List Byte) : (s.storeBytes a bytes).pc = s.pc := rfl
@[simp] theorem State.storeBytes_sp (s : State) (a : Nat) (bytes : List Byte) : (s.storeBytes a bytes).sp = s.sp := rfl
@[simp] theorem State.storeBytes_stack (s : State) (a : Nat) (bytes : List Byte) : (s.storeBytes a bytes).stack = s.stack := rfl
@[simp] theorem State.storeBytes_disp (s : State) (a : Nat) (bytes : List Byte) : (s.storeBytes a bytes).disp = s.disp := rfl
@[simp] theorem State.storeBytes_dt (s : State) (a : Nat) (bytes : List Byte) : (s.storeBytes a bytes).dt = s.dt := rfl
@[simp] theorem State.storeBytes_st (s : State) (a : Nat) (bytes : List Byte) : (s.storeBytes a bytes).st = s.st := rfl
@[simp] theorem State.storeBytes_key (s : State) (a : Nat) (bytes : List Byte) : (s.storeBytes a bytes).key = s.key := rfl
@[simp] theorem State.storeBytes_status (s : State) (a : Nat) (bytes : List Byte) : (s.storeBytes a bytes).status = s.status := rfl
@[simp] theorem State.storeBytes_changed (s : State) (a : Nat) (bytes : List Byte) : (s.storeBytes a bytes).changed = s.changed := rfl
@[simp] theorem State.storeBytes_draws (s : State) (a : Nat) (bytes : List Byte) : (s.storeBytes a bytes).draws = s.draws := rfl
@[simp] theorem State.storeBytes_schedule (s : State) (a : Nat) (bytes : List Byte) : (s.storeBytes a bytes).schedule = s.schedule := rfl

/-! ### loadRegs -/

@[simp] theorem State.loadRegs_mem (s : State) (x : Reg) (a : Nat) : (s.loadRegs x a).mem = s.mem := rfl
@[simp] theorem State.loadRegs_v (s : State) (x : Reg) (a : Nat) : (s.loadRegs x a).v = s.fileLoaded x a := rfl
@[simp] theorem State.loadRegs_i (s : State) (x : Reg) (a : Nat) : (s.loadRegs x a).i = s.i := rfl
@[simp] theorem State.loadRegs_pc (s : State) (x : Reg) (a : Nat) : (s.loadRegs x a).pc = s.pc := rfl
@[simp] theorem State.loadRegs_sp (s : State) (x : Reg) (a : Nat) : (s.loadRegs x a).sp = s.sp := rfl
@[simp] theorem State.loadRegs_stack (s : State) (x : Reg) (a : Nat) : (s.loadRegs x a).stack = s.stack := rfl
@[simp] theorem State.loadRegs_disp (s : State) (x : Reg) (a : Nat) : (s.loadRegs x a).disp = s.disp := rfl
@[simp] theorem State.loadRegs_dt (s : State) (x : Reg) (a : Nat) : (s.loadRegs x a).dt = s.dt := rfl
@[simp] theorem State.loadRegs_st (s : State) (x : Reg) (a : Nat) : (s.loadRegs x a).st = s.st := rfl
@[simp] theorem State.loadRegs_key (s : State) (x : Reg) (a : Nat) : (s.loadRegs x a).key = s.key := rfl
@[simp] theorem State.loadRegs_status (s : State) (x : Reg) (a : Nat) : (s.loadRegs x a).status = s.status := rfl
@[simp] theorem State.loadRegs_changed (s : State) (x : Reg) (a : Nat) : (s.loadRegs x a).changed = s.changed := rfl
@[simp] theorem State.loadRegs_draws (s : State) (x : Reg) (a : Nat) : (s.loadRegs x a).draws = s.draws := rfl
@[simp] theorem State.loadRegs_schedule (s : State) (x : Reg) (a : Nat) : (s.loadRegs x a).schedule = s.schedule := rfl

/-! ### raise -/

@[simp] theorem State.raise_mem (s : State) (kind : FaultKind) (op : Word) : (s.raise kind op).mem = s.mem := rfl
@[simp] theorem State.raise_v (s : State) (kind : FaultKind) (op : Word) : (s.raise kind op).v = s.v := rfl
@[simp] theorem State.raise_i (s : State) (kind : FaultKind) (op : Word) : (s.raise kind op).i = s.i := rfl
@[simp] theorem State.raise_pc (s : State) (kind : FaultKind) (op : Word) : (s.raise kind op).pc = s.pc := rfl
@[simp] theorem State.raise_sp (s : State) (kind : FaultKind) (op : Word) : (s.raise kind op).sp = s.sp := rfl
@[simp] theorem State.raise_stack (s : State) (kind : FaultKind) (op : Word) : (s.raise kind op).stack = s.stack := rfl
@[simp] theorem State.raise_disp (s : State) (kind : FaultKind) (op : Word) : (s.raise kind op).disp = s.disp := rfl
@[simp] theorem State.raise_dt (s : State) (kind : FaultKind) (op : Word) : (s.raise kind op).dt = s.dt := rfl
@[simp] theorem State.raise_st (s : State) (kind : FaultKind) (op : Word) : (s.raise kind op).st = s.st := rfl
@[simp] theorem State.raise_key (s : State) (kind : FaultKind) (op : Word) : (s.raise kind op).key = s.key := rfl
@[simp] theorem State.raise_status (s : State) (kind : FaultKind) (op : Word) : (s.raise kind op).status = .halted kind op s.pc := rfl
@[simp] theorem State.raise_changed (s : State) (kind : FaultKind) (op : Word) : (s.raise kind op).changed = false := rfl
@[simp] theorem State.raise_draws (s : State) (kind : FaultKind) (op : Word) : (s.raise kind op).draws = s.draws := rfl
@[simp] theorem State.raise_schedule (s : State) (kind : FaultKind) (op : Word) : (s.raise kind op).schedule = s.schedule := rfl

/-! ### tick -/

@[simp] theorem State.tick_mem (s : State) : (s.tick).mem = s.mem := rfl
@[simp] theorem State.tick_v (s : State) : (s.tick).v = s.v := rfl
@[simp] theorem State.tick_i (s : State) : (s.tick).i = s.i := rfl
@[simp] theorem State.tick_pc (s : State) : (s.tick).pc = s.pc := rfl
@[simp] theorem State.tick_sp (s : State) : (s.tick).sp = s.sp := rfl
@[simp] theorem State.tick_stack (s : State) : (s.tick).stack = s.stack := rfl
@[simp] theorem State.tick_disp (s : State) : (s.tick).disp = s.disp := rfl
@[simp] theorem State.tick_dt (s : State) : (s.tick).dt = tickCounter s.dt := rfl
@[simp] theorem State.tick_st (s : State) : (s.tick).st = tickCounter s.st := rfl
@[simp] theorem State.tick_key (s : State) : (s.tick).key = s.key := rfl
@[simp] theorem State.tick_status (s : State) : (s.tick).status = s.status := rfl
@[simp] theorem State.tick_changed (s : State) : (s.tick).changed = s.changed := rfl
@[simp] theorem State.tick_draws (s : State) : (s.tick).draws = s.draws := rfl
@[simp] theorem State.tick_schedule (s : State) : (s.tick).schedule = s.schedule := rfl

/-! ### keyDown -/

@[simp] theorem State.keyDown_mem (s : State) (k : Fin 16) : (s.keyDown k).mem = s.mem := rfl
@[simp] theorem State.keyDown_v (s : State) (k : Fin 16) : (s.keyDown k).v = s.v := rfl
@[simp] theorem State.keyDown_i (s : State) (k : Fin 16) : (s.keyDown k).i = s.i := rfl
@[simp] theorem State.keyDown_pc (s : State) (k : Fin 16) : (s.keyDown k).pc = s.pc := rfl
@[simp] theorem State.keyDown_sp (s : State) (k : Fin 16) : (s.keyDown k).sp = s.sp := rfl
@[simp] theorem State.keyDown_stack (s : State) (k : Fin 16) : (s.keyDown k).stack = s.stack := rfl
@[simp] theorem State.keyDown_disp (s : State) (k : Fin 16) : (s.keyDown k).disp = s.disp := rfl
@[simp] theorem State.keyDown_dt (s : State) (k : Fin 16) : (s.keyDown k).dt = s.dt := rfl
@[simp] theorem State.keyDown_st (s : State) (k : Fin 16) : (s.keyDown k).st = s.st := rfl
@[simp] theorem State.keyDown_key (s : State) (k : Fin 16) : (s.keyDown k).key = s.key.set k true := rfl
@[simp] theorem State.keyDown_status (s : State) (k : Fin 16) : (s.keyDown k).status = s.status := rfl
@[simp] theorem State.keyDown_changed (s : State) (k : Fin 16) : (s.keyDown k).changed = s.changed := rfl
@[simp] theorem State.keyDown_draws (s : State) (k : Fin 16) : (s.keyDown k).draws = s.draws := rfl
@[simp] theorem State.keyDown_schedule (s : State) (k : Fin 16) : (s.keyDown k).schedule = s.schedule := rfl

/-! ### keyUp -/

@[simp] theorem State.keyUp_mem (s : State) (k : Fin 16) : (s.keyUp k).mem = s.mem := rfl
@[simp] theorem State.keyUp_v (s : State) (k : Fin 16) : (s.keyUp k).v = s.v := rfl
@[simp] theorem State.keyUp_i (s : State) (k : Fin 16) : (s.keyUp k).i = s.i := rfl
@[simp] theorem State.keyUp_pc (s : State) (k : Fin 16) : (s.keyUp k).pc = s.pc := rfl
@[simp] theorem State.keyUp_sp (s : State) (k : Fin 16) : (s.keyUp k).sp = s.sp := rfl
@[simp] theorem State.keyUp_stack (s : State) (k : Fin 16) : (s.keyUp k).stack = s.stack := rfl
@[simp] theorem State.keyUp_disp (s : State) (k : Fin 16) : (s.keyUp k).disp = s.disp := rfl
@[simp] theorem State.keyUp_dt (s : State) (k : Fin 16) : (s.keyUp k).dt = s.dt := rfl
@[simp] theorem State.keyUp_st (s : State) (k : Fin 16) : (s.keyUp k).st = s.st := rfl
@[simp] theorem State.keyUp_key (s : State) (k : Fin 16) : (s.keyUp k).key = s.key.set k false := rfl
@[simp] theorem State.keyUp_status (s : State) (k : Fin 16) : (s.keyUp k).status = s.status := rfl
@[simp] theorem State.keyUp_changed (s : State) (k : Fin 16) : (s.keyUp k).changed = s.changed := rfl
@[simp] theorem State.keyUp_draws (s : State) (k : Fin 16) : (s.keyUp k).draws = s.draws := rfl
@[simp] theorem State.keyUp_schedule (s : State) (k : Fin 16) : (s.keyUp k).schedule = s.schedule := rfl

/-! ### writeFlagAndResult -/

@[simp] theorem State.writeFlagAndResult_mem (s : State) (x : Reg) (flag result : Byte) :
    (s.writeFlagAndResult x flag result).mem = s.mem := rfl
@[simp] theorem State.writeFlagAndResult_v (s : State) (x : Reg) (flag result : Byte) :
    (s.writeFlagAndResult x flag result).v = (s.v.set flagReg flag).set x result := rfl
@[simp] theorem State.writeFlagAndResult_i (s : State) (x : Reg) (flag result : Byte) :
    (s.writeFlagAndResult x flag result).i = s.i := rfl
@[simp] theorem State.writeFlagAndResult_pc (s : State) (x : Reg) (flag result : Byte) :
    (s.writeFlagAndResult x flag result).pc = s.pc := rfl
@[simp] theorem State.writeFlagAndResult_sp (s : State) (x : Reg) (flag result : Byte) :
    (s.writeFlagAndResult x flag result).sp = s.sp := rfl
@[simp] theorem State.writeFlagAndResult_stack (s : State) (x : Reg) (flag result : Byte) :
    (s.writeFlagAndResult x flag result).stack = s.stack := rfl
@[simp] theorem State.writeFlagAndResult_disp (s : State) (x : Reg) (flag result : Byte) :
    (s.writeFlagAndResult x flag result).disp = s.disp := rfl
@[simp] theorem State.writeFlagAndResult_dt (s : State) (x : Reg) (flag result : Byte) :
    (s.writeFlagAndResult x flag result).dt = s.dt := rfl
@[simp] theorem State.writeFlagAndResult_st (s : State) (x : Reg) (flag result : Byte) :
    (s.writeFlagAndResult x flag result).st = s.st := rfl
@[simp] theorem State.writeFlagAndResult_key (s : State) (x : Reg) (flag result : Byte) :
    (s.writeFlagAndResult x flag result).key = s.key := rfl
@[simp] theorem State.writeFlagAndResult_status (s : State) (x : Reg) (flag result : Byte) :
    (s.writeFlagAndResult x flag result).status = s.status := rfl
@[simp] theorem State.writeFlagAndResult_changed (s : State) (x : Reg) (flag result : Byte) :
    (s.writeFlagAndResult x flag result).changed = s.changed := rfl
@[simp] theorem State.writeFlagAndResult_draws (s : State) (x : Reg) (flag result : Byte) :
    (s.writeFlagAndResult x flag result).draws = s.draws := rfl
@[simp] theorem State.writeFlagAndResult_schedule (s : State) (x : Reg) (flag result : Byte) :
    (s.writeFlagAndResult x flag result).schedule = s.schedule := rfl

/-! ### markChanged -/

@[simp] theorem State.markChanged_mem (s t : State) : (State.markChanged s t).mem = t.mem := rfl
@[simp] theorem State.markChanged_v (s t : State) : (State.markChanged s t).v = t.v := rfl
@[simp] theorem State.markChanged_i (s t : State) : (State.markChanged s t).i = t.i := rfl
@[simp] theorem State.markChanged_pc (s t : State) : (State.markChanged s t).pc = t.pc := rfl
@[simp] theorem State.markChanged_sp (s t : State) : (State.markChanged s t).sp = t.sp := rfl
@[simp] theorem State.markChanged_stack (s t : State) : (State.markChanged s t).stack = t.stack := rfl
@[simp] theorem State.markChanged_disp (s t : State) : (State.markChanged s t).disp = t.disp := rfl
@[simp] theorem State.markChanged_dt (s t : State) : (State.markChanged s t).dt = t.dt := rfl
@[simp] theorem State.markChanged_st (s t : State) : (State.markChanged s t).st = t.st := rfl
@[simp] theorem State.markChanged_key (s t : State) : (State.markChanged s t).key = t.key := rfl
@[simp] theorem State.markChanged_status (s t : State) : (State.markChanged s t).status = t.status := rfl
@[simp] theorem State.markChanged_changed (s t : State) : (State.markChanged s t).changed = decide (t.disp ≠ s.disp) := rfl
@[simp] theorem State.markChanged_draws (s t : State) : (State.markChanged s t).draws = t.draws := rfl
@[simp] theorem State.markChanged_schedule (s t : State) : (State.markChanged s t).schedule = t.schedule := rfl

/-! ### Reading a register -/

theorem State.readV_def (s : State) (r : Reg) : s.readV r = s.v[r] := rfl

/-- A register reads as it was last written, and no other changes. -/
@[simp] theorem State.readV_writeV (s : State) (r q : Reg) (b : Byte) :
    (s.writeV r b).readV q = if q = r then b else s.readV q := by
  rw [State.readV_def, State.writeV_v, State.readV_def]
  rcases eq_or_ne q r with rfl | h
  · simp
  · have h' : r.val ≠ q.val := fun e => h (Fin.ext e.symm)
    simp [h, h']

/-- Two states with the same register file read alike. -/
theorem State.readV_congr {s t : State} (h : t.v = s.v) (r : Reg) : t.readV r = s.readV r := by
  rw [State.readV_def, State.readV_def, h]

@[simp] theorem State.readV_advance (s : State) (r : Reg) : s.advance.readV r = s.readV r := rfl
@[simp] theorem State.readV_skipIf (s : State) (c : Bool) (r : Reg) : (s.skipIf c).readV r = s.readV r := rfl
@[simp] theorem State.readV_jumpTo (s : State) (t : Word) (r : Reg) : (s.jumpTo t).readV r = s.readV r := rfl
@[simp] theorem State.readV_storeBytes (s : State) (a : Nat) (bytes : List Byte) (r : Reg) :
    (s.storeBytes a bytes).readV r = s.readV r := rfl
@[simp] theorem State.readV_raise (s : State) (kind : FaultKind) (op : Word) (r : Reg) :
    (s.raise kind op).readV r = s.readV r := rfl

/-- Register `r` after a block load: the byte at `a + r` for `r` up to `x`, unchanged above. -/
@[simp] theorem State.readV_loadRegs (s : State) (x : Reg) (a : Nat) (r : Reg) :
    (s.loadRegs x a).readV r = if r ≤ x then s.memRead (a + r.val) else s.readV r := by
  rw [State.readV_def, State.loadRegs_v, State.fileLoaded, Fin.getElem_fin, Vector.getElem_mapIdx]
  rfl

/-- The result wins over the flag when both go to VF. -/
@[simp] theorem State.readV_writeFlagAndResult (s : State) (x r : Reg) (flag result : Byte) :
    (s.writeFlagAndResult x flag result).readV r =
      if r = x then result else if r = flagReg then flag else s.readV r := by
  simp [State.writeFlagAndResult]

/-! ### Reading memory -/

/-- Two states with the same memory read alike. -/
theorem State.memRead_congr {s t : State} (h : t.mem = s.mem) (a : Nat) : t.memRead a = s.memRead a := by
  simp [State.memRead, h]

/-- The fetched word depends on the memory and the program counter alone. -/
theorem State.fetchWord_congr {s t : State} (hm : t.mem = s.mem) (hp : t.pc = s.pc) : t.fetchWord = s.fetchWord := by
  simp [State.fetchWord, State.memRead, hm, hp]

/-! ### The call stack -/

/-- A push with room. -/
theorem State.push_next (s : State) (w : Word) (h : s.sp.val < 16) :
    s.push? w = some { s with stack := s.stack.set s.sp.val w, sp := ⟨s.sp.val + 1, Nat.succ_lt_succ h⟩ } := by
  simp [State.push?, h]

/-- A push with 16 entries in use. -/
theorem State.push_full (s : State) (w : Word) (h : s.sp.val = 16) : s.push? w = none := by
  simp [State.push?, h]

/-- A pop of a stack that is not empty. -/
theorem State.pop_next (s : State) (h : 0 < s.sp.val) :
    s.pop? = some (s.stack[s.sp.val - 1]'(by omega), { s with sp := ⟨s.sp.val - 1, by omega⟩ }) := by
  simp [State.pop?, h]

/-- A pop of an empty stack. -/
theorem State.pop_empty (s : State) (h : s.sp.val = 0) : s.pop? = none := by
  simp [State.pop?, h]

/-- Everything RET can do. -/
theorem execRet_cases (s : State) :
    (∃ h : 0 < s.sp.val, execRet s = .next (State.jumpTo { s with sp := ⟨s.sp.val - 1, by omega⟩ }
      (s.stack[s.sp.val - 1]'(by omega)))) ∨
    (s.sp.val = 0 ∧ execRet s = .next (s.raise .stackUnderflow (encode .ret))) := by
  rcases Nat.eq_zero_or_pos s.sp.val with h | h
  · exact .inr ⟨h, by simp [execRet, s.pop_empty h]⟩
  · exact .inl ⟨h, by simp [execRet, s.pop_next h]⟩

/-- Everything CALL can do. -/
theorem execCall_cases (nnn : Addr) (s : State) :
    (∃ h : s.sp.val < 16, execCall nnn s = .next (State.jumpTo
      { s with stack := s.stack.set s.sp.val (s.pc + 2), sp := ⟨s.sp.val + 1, Nat.succ_lt_succ h⟩ } (addrWord nnn))) ∨
    (s.sp.val = 16 ∧ execCall nnn s = .next (s.raise .stackOverflow (encode (.call nnn)))) := by
  by_cases h : s.sp.val < 16
  · exact .inl ⟨h, by simp [execCall, s.push_next _ h]⟩
  · exact .inr ⟨by omega, by simp [execCall, s.push_full _ (by omega : s.sp.val = 16)]⟩

/-! ### The schedule -/

/-- Taking the next event when it is a Step. -/
theorem takeEvent_of_stepIsNext {s t : State} (h : StepIsNext s t) : s.takeEvent = (.step, t) := by
  rcases h with ⟨hs, rfl⟩ | ⟨rest, hs, rfl⟩ <;> simp [State.takeEvent, hs]

end Sys2Proof.Machine
end

