-- ==== Sys2Proof/Laws/Display.lean ====
section
/-! SUPPORT. The display buffer: what toggling does to each pixel, and that the pixels of one sprite are distinct. -/

namespace Sys2Proof.Machine

/-- Toggling a pixel changes that pixel alone. -/
theorem Display.pixel_toggle (d : Display) (p q : Pixel) :
    Display.pixel (Display.toggle d p) q = if q = p then !(Display.pixel d q) else Display.pixel d q := by
  obtain ⟨px, py⟩ := p
  obtain ⟨qx, qy⟩ := q
  simp only [Display.pixel, Display.toggle, Fin.getElem_fin, Vector.getElem_set, Prod.mk.injEq, Fin.ext_iff]
  by_cases hx : px.val = qx.val
  · by_cases hy : py.val = qy.val
    · simp [hx, hy]
    · simp [hx, hy, Ne.symm hy]
  · simp [hx, Ne.symm hx]

/-- All pixels of the cleared display are clear. -/
@[simp] theorem Display.pixel_allClear (p : Pixel) : Display.pixel Display.allClear p = false := by
  simp [Display.pixel, Display.allClear]

/-- Displays whose pixels agree are equal. -/
theorem Display.ext {d e : Display} (h : ∀ p, Display.pixel d p = Display.pixel e p) : d = e := by
  refine Vector.ext fun cx hx => Vector.ext fun cy hy => ?_
  simpa [Display.pixel] using h (⟨cx, hx⟩, ⟨cy, hy⟩)

/-- Everything toggling distinct pixels does: each of them flips, every other stays, and the collision flag is raised by
the ones that were set. -/
theorem Display.togglePixels_spec (ps : List Pixel) (hnd : ps.Nodup) (d : Display) (coll : Bool) :
    (∀ q, Display.pixel (Display.togglePixels d coll ps).1 q =
      if q ∈ ps then !(Display.pixel d q) else Display.pixel d q) ∧
    (Display.togglePixels d coll ps).2 = (coll || ps.any (Display.pixel d)) := by
  induction ps generalizing d coll with
  | nil => simp [Display.togglePixels]
  | cons p ps ih =>
    obtain ⟨hp, hnd⟩ := List.nodup_cons.1 hnd
    obtain ⟨h1, h2⟩ := ih hnd (Display.toggle d p) (coll || Display.pixel d p)
    constructor
    · intro q
      rw [Display.togglePixels, h1]
      simp only [Display.pixel_toggle, List.mem_cons]
      by_cases hq : q = p
      · simp [hq, hp]
      · simp [hq]
    · rw [Display.togglePixels, h2, List.any_cons, Bool.or_assoc]
      congr 2
      refine Bool.eq_iff_iff.2 ?_
      simp only [List.any_eq_true]
      refine exists_congr fun q => and_congr_right fun hq => ?_
      rw [Display.pixel_toggle, if_neg (fun e : q = p => hp (e ▸ hq))]

/-- Which pixels one sprite row has. -/
theorem mem_rowPixels (x0 y0 : Byte) (row : Nat) (b : Byte) (p : Pixel) :
    p ∈ rowPixels x0 y0 row b ↔ ∃ col, col < 8 ∧ b.getLsbD (7 - col) = true ∧ p = spritePixel x0 y0 row col := by
  simp only [rowPixels, List.mem_map, List.mem_filter, List.mem_range, spriteBit]
  exact exists_congr fun col => by rw [and_assoc, eq_comm (a := p)]

/-- Which pixels a sprite has. -/
theorem mem_spritePixels (x0 y0 : Byte) (rows : List Byte) (first : Nat) (p : Pixel) :
    p ∈ spritePixels x0 y0 first rows ↔ ∃ (row : Nat) (h : row < rows.length) (col : Nat), col < 8 ∧
      rows[row].getLsbD (7 - col) = true ∧ p = spritePixel x0 y0 (first + row) col := by
  induction rows generalizing first with
  | nil => simp [spritePixels]
  | cons b bs ih =>
    rw [spritePixels, List.mem_append, mem_rowPixels, ih]
    constructor
    · rintro (⟨col, h⟩ | ⟨row, hr, col, h1, h2, h3⟩)
      · exact ⟨0, by simp, col, by simpa using h⟩
      · exact ⟨row + 1, by simpa using hr, col, h1, by simpa using h2, by rw [h3]; congr 1; omega⟩
    · rintro ⟨row, hr, col, h1, h2, h3⟩
      cases row with
      | zero => exact .inl ⟨col, h1, by simpa using h2, by simpa using h3⟩
      | succ row =>
        exact .inr ⟨row, by simpa using hr, col, h1, by simpa using h2, by rw [h3]; congr 1; omega⟩

/-- Two bits of one sprite land on one pixel only if they are the same bit (43_display.md R161 c). -/
theorem spritePixel_inj {x0 y0 : Byte} {r r' c c' : Nat} (hr : r < 32) (hr' : r' < 32) (hc : c < 8) (hc' : c' < 8)
    (h : spritePixel x0 y0 r c = spritePixel x0 y0 r' c') : r = r' ∧ c = c' := by
  simp only [spritePixel, Prod.mk.injEq, Fin.ext_iff, Fin.val_ofNat] at h
  omega

theorem rowPixels_nodup (x0 y0 : Byte) (row : Nat) (hrow : row < 32) (b : Byte) : (rowPixels x0 y0 row b).Nodup := by
  refine List.Nodup.map_on (fun c hc c' hc' h => ?_) (List.nodup_range.filter _)
  simp only [List.mem_filter, List.mem_range] at hc hc'
  exact (spritePixel_inj hrow hrow hc.1 hc'.1 h).2

/-- The pixels of one sprite of at most 32 rows are distinct (43_display.md R161 c). -/
theorem spritePixels_nodup (x0 y0 : Byte) (rows : List Byte) (first : Nat) (h : first + rows.length ≤ 32) :
    (spritePixels x0 y0 first rows).Nodup := by
  induction rows generalizing first with
  | nil => simp [spritePixels]
  | cons b bs ih =>
    simp only [List.length_cons] at h
    rw [spritePixels, List.nodup_append]
    refine ⟨rowPixels_nodup _ _ _ (by omega) _, ih _ (by omega), ?_⟩
    rintro p hp q hq rfl
    obtain ⟨c, hc, -, e⟩ := (mem_rowPixels ..).1 hp
    obtain ⟨r, hr, c', hc', -, e'⟩ := (mem_spritePixels ..).1 hq
    have := (spritePixel_inj (by omega) (by omega) hc hc' (e.symm.trans e')).1
    omega

/-- The bytes a sprite is read from. -/
theorem State.length_loadBytes (s : State) (a n : Nat) : (s.loadBytes a n).length = n := by
  simp [State.loadBytes]

/-- The pixels of the sprite of a draw are those the statements say it covers. -/
theorem mem_drawn_iff (s : State) (x y : Reg) (n : Fin 16) (p : Pixel) :
    p ∈ spritePixels (s.readV x) (s.readV y) 0 (s.loadBytes s.dataAddr n.val) ↔ SpriteCovers s x y n p := by
  simp only [mem_spritePixels, SpriteCovers, State.loadBytes, List.length_map, List.length_range, List.getElem_map,
    List.getElem_range, spritePixel, Prod.ext_iff, Fin.ext_iff, Fin.val_ofNat, Nat.zero_add]
  constructor
  · rintro ⟨row, hr, col, hc, hb, hx, hy⟩
    exact ⟨row, col, hr, hc, hb, hx, hy⟩
  · rintro ⟨row, col, hr, hc, hb, hx, hy⟩
    exact ⟨row, hr, col, hc, hb, hx, hy⟩

/-- Everything a draw does to the display: the covered pixels flip, the others stay, and the collision flag says whether a
covered pixel was set. -/
theorem State.drawn_spec (s : State) (x y : Reg) (n : Fin 16) :
    (∀ p, SpriteCovers s x y n p → Display.pixel (s.drawn x y n).1 p = !(Display.pixel s.disp p)) ∧
    (∀ p, ¬ SpriteCovers s x y n p → Display.pixel (s.drawn x y n).1 p = Display.pixel s.disp p) ∧
    ((s.drawn x y n).2 = true ↔ ∃ p, SpriteCovers s x y n p ∧ Display.pixel s.disp p = true) := by
  have hnd := spritePixels_nodup (s.readV x) (s.readV y) (s.loadBytes s.dataAddr n.val) 0
    (by rw [State.length_loadBytes]; omega)
  obtain ⟨h1, h2⟩ := Display.togglePixels_spec _ hnd s.disp false
  refine ⟨fun p hp => (h1 p).trans (if_pos ((mem_drawn_iff ..).2 hp)),
    fun p hp => (h1 p).trans (if_neg fun hm => hp ((mem_drawn_iff ..).1 hm)), ?_⟩
  rw [State.drawn, h2, Bool.false_or, List.any_eq_true]
  exact exists_congr fun p => and_congr_left fun _ => mem_drawn_iff ..

end Sys2Proof.Machine
end

