-- ==== Sys2Proof/Laws/Encoding.lean ====
section
/-! SUPPORT. The fields of a word, and the fields of each format's words: what the round trip needs. -/

namespace Sys2Proof

/-- The four nibbles of a word are slices of it below 16. -/
theorem bitSlice_lt (op : Word) (hi lo : Nat) : bitSlice op hi lo < 2 ^ (hi - lo + 1) :=
  Nat.mod_lt _ (Nat.two_pow_pos _)

theorem bitSlice_15_12 (op : Word) : bitSlice op 15 12 = op.toNat / 4096 := by
  have := op.isLt
  simp only [bitSlice]
  omega

theorem bitSlice_11_8 (op : Word) : bitSlice op 11 8 = op.toNat / 256 % 16 := rfl

theorem bitSlice_7_4 (op : Word) : bitSlice op 7 4 = op.toNat / 16 % 16 := rfl

theorem bitSlice_3_0 (op : Word) : bitSlice op 3 0 = op.toNat % 16 := by simp [bitSlice]

theorem bitSlice_7_0 (op : Word) : bitSlice op 7 0 = op.toNat % 256 := by simp [bitSlice]

theorem bitSlice_11_0 (op : Word) : bitSlice op 11 0 = op.toNat % 4096 := by simp [bitSlice]

theorem bitSlice_15_8 (op : Word) : bitSlice op 15 8 = op.toNat / 256 := by
  have := op.isLt
  simp only [bitSlice]
  omega

/-! ## The numbers of the formats' words -/

theorem formatA_toNat (k : Nat) (hk : k < 16) (nnn : Addr) : (formatA k nnn).toNat = k * 4096 + nnn.toNat := by
  have := nnn.isLt
  simp only [formatA, BitVec.toNat_ofNat]
  omega

theorem formatXK_toNat (k : Nat) (hk : k < 16) (x : Reg) (kk : Byte) :
    (formatXK k x kk).toNat = k * 4096 + x.val * 256 + kk.toNat := by
  have := kk.isLt
  simp only [formatXK, BitVec.toNat_ofNat]
  omega

theorem formatXYN_toNat (k : Nat) (hk : k < 16) (x y : Reg) (low : Nat) (hl : low < 16) :
    (formatXYN k x y low).toNat = k * 4096 + x.val * 256 + y.val * 16 + low := by
  simp only [formatXYN, BitVec.toNat_ofNat]
  omega

theorem formatX_toNat (k : Nat) (hk : k < 16) (x : Reg) (f : Nat) (hf : f < 256) :
    (formatX k x f).toNat = k * 4096 + x.val * 256 + f := by
  simp only [formatX, BitVec.toNat_ofNat]
  omega

/-! ## A field from its number -/

theorem fieldX_eq {op : Word} {x : Reg} (h : op.toNat / 256 % 16 = x.val) : fieldX op = x := by
  rw [fieldX, bitSlice_11_8, h]
  exact Fin.ext (Nat.mod_eq_of_lt x.isLt)

theorem fieldY_eq {op : Word} {y : Reg} (h : op.toNat / 16 % 16 = y.val) : fieldY op = y := by
  rw [fieldY, bitSlice_7_4, h]
  exact Fin.ext (Nat.mod_eq_of_lt y.isLt)

theorem fieldN_eq {op : Word} {n : Fin 16} (h : op.toNat % 16 = n.val) : fieldN op = n := by
  rw [fieldN, bitSlice_3_0, h]
  exact Fin.ext (Nat.mod_eq_of_lt n.isLt)

theorem fieldKk_eq {op : Word} {kk : Byte} (h : op.toNat % 256 = kk.toNat) : fieldKk op = kk := by
  rw [fieldKk, bitSlice_7_0, h, BitVec.ofNat_toNat, BitVec.setWidth_eq]

theorem fieldNnn_eq {op : Word} {nnn : Addr} (h : op.toNat % 4096 = nnn.toNat) : fieldNnn op = nnn := by
  rw [fieldNnn, bitSlice_11_0, h, BitVec.ofNat_toNat, BitVec.setWidth_eq]

/-! ## The masks of the opcode map -/

/-- Masking with a block of bits from bit `k` up keeps those bits in place. -/
theorem and_mul_two_pow (v m k : Nat) : v &&& (m * 2 ^ k) = (v / 2 ^ k &&& m) * 2 ^ k := by
  apply Nat.eq_of_testBit_eq
  intro i
  simp only [Nat.testBit_and, Nat.testBit_mul_two_pow, Nat.testBit_div_two_pow]
  by_cases h : k ≤ i <;> simp [h]

/-- Masking with the top nibble and `k` low bits keeps the two parts. -/
theorem and_topNibble_low (v k : Nat) (hv : v < 65536) (hk : k ≤ 12) :
    v &&& (61440 + (2 ^ k - 1)) = v / 4096 * 4096 + v % 2 ^ k := by
  have hle : 2 ^ k ≤ 2 ^ 12 := Nat.pow_le_pow_right (by decide) hk
  have hlow : 2 ^ k - 1 < 2 ^ 12 := by have := Nat.two_pow_pos k; omega
  have hmod : v % 2 ^ k < 2 ^ 12 := lt_of_lt_of_le (Nat.mod_lt _ (Nat.two_pow_pos k)) hle
  have htop : v &&& 61440 = 2 ^ 12 * (v / 4096) := by
    rw [show 61440 = 15 * 2 ^ 12 from rfl, and_mul_two_pow, show 15 = 2 ^ 4 - 1 from rfl, Nat.and_two_pow_sub_one_eq_mod]
    omega
  rw [show 61440 = 2 ^ 12 * 15 from rfl, Nat.two_pow_add_eq_or_of_lt hlow, Nat.and_or_distrib_left,
    Nat.and_two_pow_sub_one_eq_mod, show 2 ^ 12 * 15 = 61440 from rfl, htop, ← Nat.two_pow_add_eq_or_of_lt hmod]
  omega

theorem and_F000_toNat (op : Word) : (op &&& 0xF000#16).toNat = op.toNat / 4096 * 4096 := by
  have := and_topNibble_low op.toNat 0 op.isLt (by decide)
  simpa [Nat.mod_one] using this

theorem and_F00F_toNat (op : Word) : (op &&& 0xF00F#16).toNat = op.toNat / 4096 * 4096 + op.toNat % 16 := by
  simpa using and_topNibble_low op.toNat 4 op.isLt (by decide)

theorem and_F0FF_toNat (op : Word) : (op &&& 0xF0FF#16).toNat = op.toNat / 4096 * 4096 + op.toNat % 256 := by
  simpa using and_topNibble_low op.toNat 8 op.isLt (by decide)

/-! ## Bytes and words -/

theorem wordOfBytes_toNat (hi lo : Byte) : (wordOfBytes hi lo).toNat = hi.toNat * 256 + lo.toNat := by
  have := hi.isLt
  have := lo.isLt
  simp only [wordOfBytes, BitVec.toNat_ofNat]
  omega

/-- A word is made of its two bytes (20_memory.md R56). -/
theorem wordOfBytes_highByte_lowByte (op : Word) : wordOfBytes (highByte op) (lowByte op) = op := by
  have := op.isLt
  apply BitVec.eq_of_toNat_eq
  rw [wordOfBytes_toNat]
  simp only [highByte, lowByte, bitSlice_15_8, bitSlice_7_0, BitVec.toNat_ofNat]
  omega

end Sys2Proof
end

