-- ==== Sys2Proof/Laws/Memory.lean ====
section
/-! SUPPORT. Memory: a read after a write, what a write leaves alone, the canonical form, and what it is good for. -/

namespace Sys2Proof.Machine

/-! ## The list operations -/

theorem findCell_dropCell (a b : Nat) (cs : List Host.Cell) :
    findCell b (dropCell a cs) = if b = a then none else findCell b cs := by
  induction cs with
  | nil => simp [dropCell, findCell]
  | cons c cs ih =>
    by_cases hc : c.1 = a
    · rw [dropCell, if_pos hc, ih]
      by_cases hb : b = a
      · rw [if_pos hb, if_pos hb]
      · rw [if_neg hb, if_neg hb, findCell, if_neg (fun e : c.1 = b => hb (e.symm.trans hc))]
    · rw [dropCell, if_neg hc, findCell, ih, findCell]
      by_cases hcb : c.1 = b
      · rw [if_pos hcb, if_pos hcb, if_neg (hcb ▸ hc)]
      · rw [if_neg hcb, if_neg hcb]

theorem findCell_insertCell (new : Host.Cell) (b : Nat) (cs : List Host.Cell) (h : findCell new.1 cs = none) :
    findCell b (insertCell new cs) = if b = new.1 then some new.2 else findCell b cs := by
  induction cs with
  | nil => simp [insertCell, findCell, eq_comm]
  | cons c cs ih =>
    have hc : c.1 ≠ new.1 := fun e => by simp [findCell, e] at h
    have ht : findCell new.1 cs = none := by simpa [findCell, hc] using h
    by_cases hlt : new.1 < c.1
    · rw [insertCell, if_pos hlt, findCell]
      simp only [eq_comm]
    · rw [insertCell, if_neg hlt, findCell, ih ht, findCell]
      by_cases hcb : c.1 = b
      · rw [if_pos hcb, if_pos hcb, if_neg (hcb ▸ hc)]
      · rw [if_neg hcb, if_neg hcb]

theorem mem_dropCell {a : Nat} {c : Host.Cell} {cs : List Host.Cell} (h : c ∈ dropCell a cs) : c ∈ cs ∧ c.1 ≠ a := by
  induction cs with
  | nil => simp [dropCell] at h
  | cons d ds ih =>
    by_cases hd : d.1 = a
    · simp only [dropCell, hd, if_true] at h
      exact ⟨List.mem_cons_of_mem _ (ih h).1, (ih h).2⟩
    · simp only [dropCell, hd, if_false, List.mem_cons] at h
      rcases h with rfl | h
      · exact ⟨List.mem_cons_self, hd⟩
      · exact ⟨List.mem_cons_of_mem _ (ih h).1, (ih h).2⟩

theorem mem_insertCell {new c : Host.Cell} {cs : List Host.Cell} (h : c ∈ insertCell new cs) : c = new ∨ c ∈ cs := by
  induction cs with
  | nil => simpa [insertCell] using h
  | cons d ds ih =>
    by_cases hlt : new.1 < d.1
    · simpa [insertCell, hlt] using h
    · simp only [insertCell, hlt, if_false, List.mem_cons] at h
      rcases h with rfl | h
      · exact .inr List.mem_cons_self
      · exact (ih h).imp_right (List.mem_cons_of_mem _)

theorem dropCell_rising (a : Nat) {cs : List Host.Cell} (h : cs.Pairwise (fun c d => c.1 < d.1)) :
    (dropCell a cs).Pairwise (fun c d => c.1 < d.1) := by
  induction cs with
  | nil => simp [dropCell]
  | cons c cs ih =>
    obtain ⟨h1, h2⟩ := List.pairwise_cons.1 h
    by_cases hc : c.1 = a
    · simpa [dropCell, hc] using ih h2
    · simp only [dropCell, hc, if_false, List.pairwise_cons]
      exact ⟨fun d hd => h1 d (mem_dropCell hd).1, ih h2⟩

theorem insertCell_rising (new : Host.Cell) {cs : List Host.Cell} (h : cs.Pairwise (fun c d => c.1 < d.1))
    (hne : ∀ c ∈ cs, c.1 ≠ new.1) : (insertCell new cs).Pairwise (fun c d => c.1 < d.1) := by
  induction cs with
  | nil => simp [insertCell]
  | cons c cs ih =>
    obtain ⟨h1, h2⟩ := List.pairwise_cons.1 h
    by_cases hlt : new.1 < c.1
    · simp only [insertCell, hlt, if_true, List.pairwise_cons]
      exact ⟨fun d hd => (List.mem_cons.1 hd).elim (fun e => e ▸ hlt) (fun m => hlt.trans (h1 d m)), h1, h2⟩
    · simp only [insertCell, hlt, if_false, List.pairwise_cons]
      refine ⟨fun d hd => ?_, ih h2 (fun d hd => hne d (List.mem_cons_of_mem _ hd))⟩
      rcases mem_insertCell hd with rfl | hm
      · have := hne c List.mem_cons_self
        omega
      · exact h1 d hm

/-! ## Reads and writes -/

@[simp] theorem Memory.write_font (m : Memory) (a : Nat) (b : Byte) : (m.write a b).font = m.font := rfl

@[simp] theorem Memory.writeBytes_font (m : Memory) (a : Nat) (bs : List Byte) : (m.writeBytes a bs).font = m.font := by
  induction bs generalizing m a with
  | nil => rfl
  | cons b bs ih => simp [Memory.writeBytes, ih]

/-- An address reads as the cell of its remainder. -/
theorem Memory.read_mod (m : Memory) (a : Nat) : m.read (a % 4096) = m.read a := by
  simp [Memory.read]

/-- A read after a write: the byte written in the written cell, the byte before in every other. -/
theorem Memory.read_write (m : Memory) (a c : Nat) (b : Byte) :
    (m.write a b).read c = if c % 4096 = a % 4096 then b else m.read c := by
  simp only [Memory.read, Memory.write, Config.memSize]
  by_cases hb : b = initialByte m.font (a % 4096)
  · by_cases hc : c % 4096 = a % 4096
    · simp [hb, hc, findCell_dropCell]
    · simp [hb, hc, findCell_dropCell]
  · have hnone : findCell (a % 4096) (dropCell (a % 4096) m.cells) = none := by simp [findCell_dropCell]
    by_cases hc : c % 4096 = a % 4096
    · simp [hb, hc, findCell_insertCell (a % 4096, b) _ _ hnone]
    · simp [hb, hc, findCell_insertCell (a % 4096, b) _ _ hnone, findCell_dropCell]

/-- Writing some bytes leaves every other cell alone. -/
theorem Memory.read_writeBytes_outside (m : Memory) (a c : Nat) (bs : List Byte)
    (h : ∀ k, k < bs.length → c % 4096 ≠ (a + k) % 4096) : (m.writeBytes a bs).read c = m.read c := by
  induction bs generalizing m a with
  | nil => rfl
  | cons b bs ih =>
    have h0 : c % 4096 ≠ a % 4096 := by simpa using h 0 (by simp)
    rw [Memory.writeBytes, ih, Memory.read_write, if_neg h0]
    intro k hk
    have := h (k + 1) (by simpa using hk)
    rwa [show a + 1 + k = a + (k + 1) by omega]

/-- Writing at most 4096 bytes stores each of them: the written cells are distinct. -/
theorem Memory.read_writeBytes_inside (m : Memory) (a k : Nat) (bs : List Byte) (hlen : bs.length ≤ 4096)
    (hk : k < bs.length) : (m.writeBytes a bs).read (a + k) = bs[k] := by
  induction bs generalizing m a k with
  | nil => simp at hk
  | cons b bs ih =>
    simp only [List.length_cons] at hlen hk
    cases k with
    | zero =>
      rw [Memory.writeBytes, Memory.read_writeBytes_outside, Memory.read_write]
      · simp
      · intro j hj
        simp only [Nat.add_zero]
        omega
    | succ k =>
      rw [Memory.writeBytes, show a + (k + 1) = a + 1 + k by omega, ih _ _ _ (by omega) (by omega)]
      simp

/-! ## The canonical form -/

/-- A write keeps the canonical form. -/
theorem Memory.write_wf (m : Memory) (a : Nat) (b : Byte) (h : m.wf) : (m.write a b).wf := by
  obtain ⟨hr, hc⟩ := h
  by_cases hb : b = initialByte m.font (a % Config.memSize)
  · simp only [Memory.wf, Memory.write, hb, if_true]
    exact ⟨dropCell_rising _ hr, fun c hm => hc c (mem_dropCell hm).1⟩
  · simp only [Memory.wf, Memory.write, hb, if_false]
    refine ⟨insertCell_rising _ (dropCell_rising _ hr) fun c hm => (mem_dropCell hm).2, fun c hm => ?_⟩
    rcases mem_insertCell hm with rfl | hm
    · exact ⟨Nat.mod_lt _ (by simp), hb⟩
    · exact hc c (mem_dropCell hm).1

/-- Writing several bytes keeps the canonical form. -/
theorem Memory.writeBytes_wf (m : Memory) (a : Nat) (bs : List Byte) (h : m.wf) : (m.writeBytes a bs).wf := by
  induction bs generalizing m a with
  | nil => exact h
  | cons b bs ih => exact ih _ _ (Memory.write_wf m a b h)

/-- Memory with nothing listed is in the canonical form. -/
theorem Memory.empty_wf (font : Vector Byte 80) : Memory.wf { font := font, cells := [] } := by
  simp [Memory.wf]

/-- A program's cells lie in order from its first address, none of them zero. -/
theorem mem_romCells {a : Nat} {rom : List Byte} {c : Host.Cell} (h : c ∈ romCells a rom) :
    a ≤ c.1 ∧ c.1 < a + rom.length ∧ c.2 ≠ 0 := by
  induction rom generalizing a with
  | nil => simp [romCells] at h
  | cons b bs ih =>
    simp only [List.length_cons]
    by_cases hb : b = 0
    · simp only [romCells, hb, if_true] at h
      have := ih h
      exact ⟨by omega, by omega, this.2.2⟩
    · simp only [romCells, hb, if_false, List.mem_cons] at h
      rcases h with rfl | h
      · exact ⟨Nat.le_refl _, by simp, hb⟩
      · have := ih h
        exact ⟨by omega, by omega, this.2.2⟩

theorem romCells_rising (a : Nat) (rom : List Byte) : (romCells a rom).Pairwise (fun c d => c.1 < d.1) := by
  induction rom generalizing a with
  | nil => simp [romCells]
  | cons b bs ih =>
    by_cases hb : b = 0
    · rw [romCells, if_pos hb]; exact ih (a + 1)
    · simp only [romCells, hb, if_false, List.pairwise_cons]
      exact ⟨fun d hd => (mem_romCells hd).1, ih (a + 1)⟩

/-- A loaded program's memory is in the canonical form. -/
theorem Memory.rom_wf (font : Vector Byte 80) (rom : List Byte) (h : rom.length ≤ 3584) :
    Memory.wf { font := font, cells := romCells 0x200 rom } := by
  refine ⟨romCells_rising _ _, fun c hc => ?_⟩
  obtain ⟨h1, h2, h3⟩ := mem_romCells hc
  refine ⟨by simp only [Config.memSize]; omega, ?_⟩
  simpa [initialByte, show ¬ c.1 < 80 by omega] using h3

theorem findCell_romCells_none (a b : Nat) (rom : List Byte) (h : b < a ∨ a + rom.length ≤ b) :
    findCell b (romCells a rom) = none := by
  induction rom generalizing a with
  | nil => rfl
  | cons c cs ih =>
    simp only [List.length_cons] at h
    have ht := ih (a + 1) (by omega)
    by_cases hc : c = 0
    · rw [romCells, if_pos hc, ht]
    · have hlen : cs.length + 1 > 0 := Nat.succ_pos _
      rw [romCells, if_neg hc, findCell, if_neg (by simp only; omega), ht]

/-- A loaded program's byte `j` reads at its place. -/
theorem findCell_romCells (a j : Nat) (rom : List Byte) (hj : j < rom.length) :
    (findCell (a + j) (romCells a rom)).getD 0 = rom[j] := by
  induction rom generalizing a j with
  | nil => simp at hj
  | cons c cs ih =>
    simp only [List.length_cons] at hj
    by_cases hc : c = 0
    · rw [romCells, if_pos hc]
      cases j with
      | zero => rw [Nat.add_zero, findCell_romCells_none _ _ _ (by omega)]; simp [hc]
      | succ j => rw [show a + (j + 1) = a + 1 + j by omega, ih _ _ (by omega)]; simp
    · rw [romCells, if_neg hc, findCell]
      cases j with
      | zero => simp
      | succ j =>
        rw [if_neg (by simp only; omega), show a + (j + 1) = a + 1 + j by omega, ih _ _ (by omega)]; simp

end Sys2Proof.Machine
end

