-- ==== Sys2Proof/Laws/PerInstr.lean ====
section
/-! SUPPORT. One lemma per instruction: its encoded word lies in the family of its first pattern nibble
(30_encoding.md R82, R86). -/

namespace Sys2Proof.Laws.EncodedFamily

/-- The first nibble of an instruction's pattern (R86). -/
def family : Instr → Nat
  | .cls => 0
  | .ret => 0
  | .sys _ => 0
  | .jp _ => 1
  | .call _ => 2
  | .seImm _ _ => 3
  | .sneImm _ _ => 4
  | .seReg _ _ => 5
  | .ldImm _ _ => 6
  | .addImm _ _ => 7
  | .ldReg _ _ => 8
  | .orReg _ _ => 8
  | .andReg _ _ => 8
  | .xorReg _ _ => 8
  | .addReg _ _ => 8
  | .subReg _ _ => 8
  | .shr _ _ => 8
  | .subnReg _ _ => 8
  | .shl _ _ => 8
  | .sneReg _ _ => 9
  | .ldI _ => 10
  | .jpV0 _ => 11
  | .rnd _ _ => 12
  | .drw _ _ _ => 13
  | .skp _ => 14
  | .sknp _ => 14
  | .ldVxDt _ => 15
  | .ldVxK _ => 15
  | .ldDtVx _ => 15
  | .ldStVx _ => 15
  | .addIVx _ => 15
  | .ldFVx _ => 15
  | .ldBVx _ => 15
  | .ldMemVx _ => 15
  | .ldVxMem _ => 15

/-- The encoded word's first nibble is the pattern's. -/
def Statement (i : Instr) : Prop := (encode i).toNat / 4096 = family i

theorem cls : Statement (.cls) := rfl

theorem ret : Statement (.ret) := rfl

theorem sys (nnn : Addr) : Statement (.sys nnn) := by
  have := formatA_toNat 0 (by decide) nnn
  simp only [Statement, encode, family]
  omega

theorem jp (nnn : Addr) : Statement (.jp nnn) := by
  have := formatA_toNat 1 (by decide) nnn
  simp only [Statement, encode, family]
  omega

theorem call (nnn : Addr) : Statement (.call nnn) := by
  have := formatA_toNat 2 (by decide) nnn
  simp only [Statement, encode, family]
  omega

theorem seImm (x : Reg) (kk : Byte) : Statement (.seImm x kk) := by
  have := formatXK_toNat 3 (by decide) x kk
  simp only [Statement, encode, family]
  omega

theorem sneImm (x : Reg) (kk : Byte) : Statement (.sneImm x kk) := by
  have := formatXK_toNat 4 (by decide) x kk
  simp only [Statement, encode, family]
  omega

theorem seReg (x y : Reg) : Statement (.seReg x y) := by
  have := formatXYN_toNat 5 (by decide) x y 0 (by decide)
  simp only [Statement, encode, family]
  omega

theorem ldImm (x : Reg) (kk : Byte) : Statement (.ldImm x kk) := by
  have := formatXK_toNat 6 (by decide) x kk
  simp only [Statement, encode, family]
  omega

theorem addImm (x : Reg) (kk : Byte) : Statement (.addImm x kk) := by
  have := formatXK_toNat 7 (by decide) x kk
  simp only [Statement, encode, family]
  omega

theorem ldReg (x y : Reg) : Statement (.ldReg x y) := by
  have := formatXYN_toNat 8 (by decide) x y 0 (by decide)
  simp only [Statement, encode, family]
  omega

theorem orReg (x y : Reg) : Statement (.orReg x y) := by
  have := formatXYN_toNat 8 (by decide) x y 1 (by decide)
  simp only [Statement, encode, family]
  omega

theorem andReg (x y : Reg) : Statement (.andReg x y) := by
  have := formatXYN_toNat 8 (by decide) x y 2 (by decide)
  simp only [Statement, encode, family]
  omega

theorem xorReg (x y : Reg) : Statement (.xorReg x y) := by
  have := formatXYN_toNat 8 (by decide) x y 3 (by decide)
  simp only [Statement, encode, family]
  omega

theorem addReg (x y : Reg) : Statement (.addReg x y) := by
  have := formatXYN_toNat 8 (by decide) x y 4 (by decide)
  simp only [Statement, encode, family]
  omega

theorem subReg (x y : Reg) : Statement (.subReg x y) := by
  have := formatXYN_toNat 8 (by decide) x y 5 (by decide)
  simp only [Statement, encode, family]
  omega

theorem shr (x y : Reg) : Statement (.shr x y) := by
  have := formatXYN_toNat 8 (by decide) x y 6 (by decide)
  simp only [Statement, encode, family]
  omega

theorem subnReg (x y : Reg) : Statement (.subnReg x y) := by
  have := formatXYN_toNat 8 (by decide) x y 7 (by decide)
  simp only [Statement, encode, family]
  omega

theorem shl (x y : Reg) : Statement (.shl x y) := by
  have := formatXYN_toNat 8 (by decide) x y 14 (by decide)
  simp only [Statement, encode, family]
  omega

theorem sneReg (x y : Reg) : Statement (.sneReg x y) := by
  have := formatXYN_toNat 9 (by decide) x y 0 (by decide)
  simp only [Statement, encode, family]
  omega

theorem ldI (nnn : Addr) : Statement (.ldI nnn) := by
  have := formatA_toNat 10 (by decide) nnn
  simp only [Statement, encode, family]
  omega

theorem jpV0 (nnn : Addr) : Statement (.jpV0 nnn) := by
  have := formatA_toNat 11 (by decide) nnn
  simp only [Statement, encode, family]
  omega

theorem rnd (x : Reg) (kk : Byte) : Statement (.rnd x kk) := by
  have := formatXK_toNat 12 (by decide) x kk
  simp only [Statement, encode, family]
  omega

theorem drw (x y : Reg) (n : Fin 16) : Statement (.drw x y n) := by
  have := formatXYN_toNat 13 (by decide) x y n.val n.isLt
  simp only [Statement, encode, family]
  omega

theorem skp (x : Reg) : Statement (.skp x) := by
  have := formatX_toNat 14 (by decide) x 158 (by decide)
  simp only [Statement, encode, family]
  omega

theorem sknp (x : Reg) : Statement (.sknp x) := by
  have := formatX_toNat 14 (by decide) x 161 (by decide)
  simp only [Statement, encode, family]
  omega

theorem ldVxDt (x : Reg) : Statement (.ldVxDt x) := by
  have := formatX_toNat 15 (by decide) x 7 (by decide)
  simp only [Statement, encode, family]
  omega

theorem ldVxK (x : Reg) : Statement (.ldVxK x) := by
  have := formatX_toNat 15 (by decide) x 10 (by decide)
  simp only [Statement, encode, family]
  omega

theorem ldDtVx (x : Reg) : Statement (.ldDtVx x) := by
  have := formatX_toNat 15 (by decide) x 21 (by decide)
  simp only [Statement, encode, family]
  omega

theorem ldStVx (x : Reg) : Statement (.ldStVx x) := by
  have := formatX_toNat 15 (by decide) x 24 (by decide)
  simp only [Statement, encode, family]
  omega

theorem addIVx (x : Reg) : Statement (.addIVx x) := by
  have := formatX_toNat 15 (by decide) x 30 (by decide)
  simp only [Statement, encode, family]
  omega

theorem ldFVx (x : Reg) : Statement (.ldFVx x) := by
  have := formatX_toNat 15 (by decide) x 41 (by decide)
  simp only [Statement, encode, family]
  omega

theorem ldBVx (x : Reg) : Statement (.ldBVx x) := by
  have := formatX_toNat 15 (by decide) x 51 (by decide)
  simp only [Statement, encode, family]
  omega

theorem ldMemVx (x : Reg) : Statement (.ldMemVx x) := by
  have := formatX_toNat 15 (by decide) x 85 (by decide)
  simp only [Statement, encode, family]
  omega

theorem ldVxMem (x : Reg) : Statement (.ldVxMem x) := by
  have := formatX_toNat 15 (by decide) x 101 (by decide)
  simp only [Statement, encode, family]
  omega

end Sys2Proof.Laws.EncodedFamily
end

