-- ==== Sys2Proof/Laws/Step.lean ====
section
/-! SUPPORT. What each shared operation and each event can do, said once: the program counter, the frames of the shapes of
instruction, the key wait, a decode error, a Load, a Step of the executor and a step of the machine. -/

namespace Sys2Proof.Machine

/-! ## The program counter -/

theorem advanced_of_pc {s t : State} (h : t.pc = s.pc + 2) : Advanced s t := by
  simp [Advanced, h, BitVec.toNat_add]

theorem skipIf_skippedIf (s : State) {c : Bool} {P : Prop} (h : c = true ↔ P) : SkippedIf P s (s.skipIf c) := by
  constructor <;> intro hp <;> cases c <;> simp_all [BitVec.toNat_add]

/-! ## Frames of the shapes of instruction -/

theorem writeV_advance_keeps (s : State) (x : Reg) (b : Byte) :
    Keeps { regs := fun r => r = x } s (s.writeV x b).advance := by
  simp +contextual [Keeps, State.memRead]

theorem writeFlagAndResult_advance_keeps (s : State) (x : Reg) (flag result : Byte) :
    Keeps { regs := fun r => r = x ∨ r = 15 } s (s.writeFlagAndResult x flag result).advance := by
  refine ⟨fun r hr => ?_, fun _ _ => rfl, by simp⟩
  rw [State.readV_advance, State.readV_writeFlagAndResult, if_neg fun e => hr (.inl e),
    if_neg fun e : r = flagReg => hr (.inr e)]

theorem storeBytes_advance_keeps (s : State) (a : Nat) (bytes : List Byte) {n : Nat} (h : bytes.length = n) :
    Keeps { cells := CellsFrom a n } s (s.storeBytes a bytes).advance :=
  ⟨fun _ _ => rfl, fun _ hc => Memory.read_writeBytes_outside _ _ _ _ fun k hk e => hc ⟨k, h ▸ hk, e⟩,
    fun _ _ => rfl, by simp⟩

theorem memRead_storeBytes_advance (s : State) (a k : Nat) (bytes : List Byte) (h : bytes.length ≤ 4096)
    (hk : k < bytes.length) : ((s.storeBytes a bytes).advance).memRead (a + k) = bytes[k] :=
  Memory.read_writeBytes_inside _ _ _ _ h hk

theorem memRead_mod (s : State) (a : Nat) : s.memRead (a % 4096) = s.memRead a := Memory.read_mod _ _

theorem length_regsUpTo (s : State) (x : Reg) : (s.regsUpTo x).length = x.val + 1 := by simp [State.regsUpTo]

theorem Keeps.mono {w w' : Written} {s t : State} (h : Keeps w s t) (regs : ∀ r, w.regs r → w'.regs r)
    (cells : ∀ c, w.cells c → w'.cells c) (slots : ∀ j, w.slots j → w'.slots j) (index : w.index → w'.index)
    (sp : w.sp → w'.sp) (display : w.display → w'.display) (dt : w.dt → w'.dt) (st : w.st → w'.st)
    (draws : w.draws → w'.draws) : Keeps w' s t := by
  obtain ⟨h1, h2, h3, h4, h5, h6, h7, h8, h9, rest⟩ := h
  exact ⟨fun r h => h1 r (h ∘ regs r), fun a h => h2 a (h ∘ cells _), fun j h => h3 j (h ∘ slots j), fun h => h4 (h ∘ index),
    fun h => h5 (h ∘ sp), fun h => h6 (h ∘ display), fun h => h7 (h ∘ dt), fun h => h8 (h ∘ st), fun h => h9 (h ∘ draws),
    rest⟩

/-! ## The key wait -/

theorem leastKey_eq_none (s : State) (h : ∀ k : Fin 16, s.key[k] = false) : s.leastKey = none := by
  simpa [State.leastKey, State.keyPressed] using h

theorem leastKey_eq_some (s : State) (k : Fin 16) (hk : s.key[k] = true)
    (least : ∀ j : Fin 16, j < k → s.key[j] = false) : s.leastKey = some k := by
  rw [State.leastKey, List.find?_eq_some_iff_getElem]
  refine ⟨hk, k.val, by simp, by simp, fun j hj => ?_⟩
  simpa [State.keyPressed] using least ⟨j, by omega⟩ hj

/-! ## Decoding -/

/-- The one error a whole word can give names the word. -/
theorem decodeWord_error {op : Word} {e : DecodeError} (h : decodeWord op = .error e) : e = .unknownOpcode op := by
  unfold decodeWord decodeFamily8 decodeFamilyE decodeFamilyF decodeLowNibbleZero at h
  repeat' split at h
  all_goals first | (cases h; done) | (cases h; rfl)

/-! ## Events -/

theorem afterLoad_cases (s : State) (rom : List Byte) :
    (rom.length ≤ 3584 ∧ s.afterLoad rom = s.loaded rom) ∨ (3584 < rom.length ∧ s.afterLoad rom = s) := by
  by_cases h : 3584 < rom.length
  · exact .inr ⟨h, by simp [State.afterLoad, State.load, h]⟩
  · exact .inl ⟨by omega, by simp [State.afterLoad, State.load, h]⟩

/-- Everything a Step of the executor can do when it answers a next state. -/
theorem executorStep_cases {s t : State} (h : executorStep s = .next t) :
    (s.status ≠ .running ∧ t = s) ∨
    (s.status = .running ∧ decodeWord s.fetchWord = .error (.unknownOpcode s.fetchWord) ∧
      t = s.raise .unknownOpcode s.fetchWord) ∨
    (s.status = .running ∧ ∃ i u, decodeWord s.fetchWord = .ok i ∧ exec i s = .next u ∧ t = State.markChanged s u) := by
  unfold executorStep at h
  split at h
  · cases h
    exact .inl ⟨by simp [*], rfl⟩
  · rename_i running
    unfold executeFetched at h
    split at h
    · rename_i e he
      cases h
      exact .inr (.inl ⟨running, by rw [he, decodeWord_error he], by simp [State.markChanged, State.raise]⟩)
    · rename_i i hi
      cases hu : exec i s with
      | next u => rw [hu] at h; cases h; exact .inr (.inr ⟨running, i, u, hi, hu, rfl⟩)
      | fault r => cases r
      | refused r => rw [hu] at h; cases h

/-- Everything a step of the machine can be: one of the six events. -/
theorem step_cases {s t : State} (h : step s = .next t) :
    (∃ t₀, StepIsNext s t₀ ∧ executorStep t₀ = .next t) ∨
    (∃ rest, s.schedule = .tick :: rest ∧ t = State.tick { s with schedule := rest }) ∨
    (∃ k rest, s.schedule = .keyDown k :: rest ∧ t = State.keyDown { s with schedule := rest } k) ∨
    (∃ k rest, s.schedule = .keyUp k :: rest ∧ t = State.keyUp { s with schedule := rest } k) ∨
    (∃ rom rest, s.schedule = .load rom :: rest ∧ t = State.afterLoad { s with schedule := rest } rom) ∨
    (∃ rest, s.schedule = .construct :: rest ∧ t = State.construct { s with schedule := rest }) := by
  cases hs : s.schedule with
  | nil => exact .inl ⟨s, .inl ⟨hs, rfl⟩, by rw [← h, step, State.takeEvent, hs]⟩
  | cons e rest =>
    cases e <;> simp only [step, State.takeEvent, hs, Host.Outcome.next.injEq] at h <;> simp_all [StepIsNext]

end Sys2Proof.Machine
end

