-- ==== Sys2Proof/Tests/Slice0.lean ====
section
/-! SUPPORT. The model's own tests: ill-formed terms are refused, each constructor's word decodes to it, single steps give
the results of 95_test_vectors.md (each test names its vector), and a witness for each statement with hypotheses. -/

namespace Sys2Proof.Tests

open Sys2Proof.Machine

/-! ## WellFormed: R87's priority refuses the two words that are CLS and RET -/

theorem test_sys_0E0_is_ill_formed : (Instr.sys 0x0E0).wellFormed = false := by decide
theorem test_sys_0EE_is_ill_formed : (Instr.sys 0x0EE).wellFormed = false := by decide
theorem test_sys_0E1_is_well_formed : (Instr.sys 0x0E1).wellFormed = true := by decide

/-! ## Decoding: the words of 95_test_vectors.md section 2.1 and of R86, one or more for each constructor -/

theorem test_decode_family0 : decodeWord 0x00E0 = .ok .cls ∧ decodeWord 0x00EE = .ok .ret ∧
    decodeWord 0x0000 = .ok (.sys 0x000) ∧ decodeWord 0x00E1 = .ok (.sys 0x0E1) ∧ decodeWord 0x0E00 = .ok (.sys 0xE00) ∧
    decodeWord 0x0FFF = .ok (.sys 0xFFF) := by decide

theorem test_decode_addresses : decodeWord 0x1ABC = .ok (.jp 0xABC) ∧ decodeWord 0x2ABC = .ok (.call 0xABC) ∧
    decodeWord 0xAABC = .ok (.ldI 0xABC) ∧ decodeWord 0xBABC = .ok (.jpV0 0xABC) := by decide

theorem test_decode_bytes : decodeWord 0x3A12 = .ok (.seImm 10 0x12) ∧ decodeWord 0x4A12 = .ok (.sneImm 10 0x12) ∧
    decodeWord 0x6A12 = .ok (.ldImm 10 0x12) ∧ decodeWord 0x7A12 = .ok (.addImm 10 0x12) ∧
    decodeWord 0xCA12 = .ok (.rnd 10 0x12) := by decide

theorem test_decode_family8 : decodeWord 0x8AB0 = .ok (.ldReg 10 11) ∧ decodeWord 0x8AB1 = .ok (.orReg 10 11) ∧
    decodeWord 0x8AB2 = .ok (.andReg 10 11) ∧ decodeWord 0x8AB3 = .ok (.xorReg 10 11) ∧
    decodeWord 0x8AB4 = .ok (.addReg 10 11) ∧ decodeWord 0x8AB5 = .ok (.subReg 10 11) ∧
    decodeWord 0x8AB6 = .ok (.shr 10 11) ∧ decodeWord 0x8AB7 = .ok (.subnReg 10 11) ∧
    decodeWord 0x8ABE = .ok (.shl 10 11) := by decide

theorem test_decode_low_nibble : decodeWord 0x5AB0 = .ok (.seReg 10 11) ∧ decodeWord 0x9AB0 = .ok (.sneReg 10 11) ∧
    decodeWord 0xDAB5 = .ok (.drw 10 11 5) ∧ decodeWord 0xDAB0 = .ok (.drw 10 11 0) := by decide

theorem test_decode_familyE : decodeWord 0xEA9E = .ok (.skp 10) ∧ decodeWord 0xEAA1 = .ok (.sknp 10) := by decide

theorem test_decode_familyF : decodeWord 0xFA07 = .ok (.ldVxDt 10) ∧ decodeWord 0xFA0A = .ok (.ldVxK 10) ∧
    decodeWord 0xFA15 = .ok (.ldDtVx 10) ∧ decodeWord 0xFA18 = .ok (.ldStVx 10) ∧ decodeWord 0xFA1E = .ok (.addIVx 10) ∧
    decodeWord 0xFA29 = .ok (.ldFVx 10) ∧ decodeWord 0xFA33 = .ok (.ldBVx 10) ∧ decodeWord 0xFA55 = .ok (.ldMemVx 10) ∧
    decodeWord 0xFA65 = .ok (.ldVxMem 10) := by decide

theorem test_decode_refuses : decodeWord 0x5AB1 = .error (.unknownOpcode 0x5AB1) ∧
    decodeWord 0x8AB8 = .error (.unknownOpcode 0x8AB8) ∧ decodeWord 0x8ABF = .error (.unknownOpcode 0x8ABF) ∧
    decodeWord 0x9AB8 = .error (.unknownOpcode 0x9AB8) ∧ decodeWord 0xEA9F = .error (.unknownOpcode 0xEA9F) ∧
    decodeWord 0xFA1F = .error (.unknownOpcode 0xFA1F) := by decide

/-- R56: the byte at the lower address is the more significant. -/
theorem test_decode_byte_order : decodeBytes [0x12, 0x34, 0x56] = .ok (.jp 0x234, [0x56]) := by decide

theorem test_decode_truncated : decodeBytes [0x12] = .error .truncated := by decide

/-! ## Single steps -/

/-- Right after reset, with the word `op` at the program counter. -/
def fetching (op : Word) : State := State.reset.withFetchWord 16 op.toNat

/-- `fetching op` with two registers set. -/
def given (op : Word) (x : Reg) (a : Byte) (y : Reg) (b : Byte) : State := ((fetching op).writeV x a).writeV y b

/-- `fetching op` with `I` set and bytes stored there. -/
def reading (op : Word) (i : Word) (bytes : List Byte) : State :=
  { (fetching op).storeBytes i.toNat bytes with i := i }

/-- A view of the state after one step. -/
def see {α : Type} (s : State) (view : State → α) : Option α :=
  match step s with
  | .next t => some (view t)
  | .fault _ => none
  | .refused _ => none

/-- PC and two registers. -/
def regs (x y : Reg) (t : State) : Word × Byte × Byte := (t.pc, t.readV x, t.readV y)

theorem test_F1_sys : see (fetching 0x0123) State.pc = some 0x202 := by decide
theorem test_F3_jp : see (fetching 0x1ABD) State.pc = some 0xABD := by decide
theorem test_F6_call : see { fetching 0x2300 with sp := 15 } (fun t => (t.pc, t.sp, t.stack[15])) =
    some (0x300, 16, 0x202) := by decide
theorem test_F7_call_overflows : see { fetching 0x2300 with sp := 16 } (fun t => (t.status, t.pc, t.sp)) =
    some (.halted .stackOverflow 0x2300 0x200, 0x200, 16) := by decide
theorem test_F9_ret : see { fetching 0x00EE with sp := 1, stack := State.reset.stack.set 0 0x302 }
    (fun t => (t.pc, t.sp, t.stack[0])) = some (0x302, 0, 0x302) := by decide
theorem test_F10_ret_underflows : see (fetching 0x00EE) (fun t => (t.status, t.pc)) =
    some (.halted .stackUnderflow 0x00EE 0x200, 0x200) := by decide
theorem test_F12_jp_v0 : see (given 0xBFFF 0 0xFF 1 0) State.pc = some 0x10FE := by decide
theorem test_F13_jp_v0_not_v1 : see (given 0xB100 0 0x02 1 0x55) State.pc = some 0x102 := by decide
theorem test_F14_se_imm : see (given 0x332A 3 0x2A 0 0) State.pc = some 0x204 := by decide
theorem test_F15_se_imm : see (given 0x332B 3 0x2A 0 0) State.pc = some 0x202 := by decide
theorem test_F16_sne_imm : see (given 0x432A 3 0x2A 0 0) State.pc = some 0x202 := by decide
theorem test_F17_sne_imm : see (given 0x432B 3 0x2A 0 0) State.pc = some 0x204 := by decide
theorem test_F18_se_reg : see (given 0x5120 1 7 2 7) State.pc = some 0x204 := by decide
theorem test_F19_se_reg : see (given 0x5120 1 7 2 8) State.pc = some 0x202 := by decide
theorem test_F21_sne_reg : see (given 0x9120 1 7 2 8) State.pc = some 0x204 := by decide
theorem test_F22_sne_reg : see (given 0x9120 1 7 2 7) State.pc = some 0x202 := by decide

theorem test_A2_ld_imm : see (fetching 0x6FAB) (regs 15 0) = some (0x202, 0xAB, 0) := by decide
theorem test_A5_add_imm_no_flag : see (given 0x7002 0 0xFF 15 1) (regs 0 15) = some (0x202, 0x01, 1) := by decide
theorem test_A6_ld_reg : see (given 0x8120 1 0 2 0x7C) (regs 1 2) = some (0x202, 0x7C, 0x7C) := by decide
theorem test_A7_or : see ((given 0x8121 1 0xF0 2 0x0F).writeV 15 1) (regs 1 15) = some (0x202, 0xFF, 1) := by decide
theorem test_A8_and : see (given 0x8122 1 0xF0 2 0x3C) (regs 1 15) = some (0x202, 0x30, 0) := by decide
theorem test_A9_xor : see (given 0x8123 1 0xF0 2 0x3C) (regs 1 15) = some (0x202, 0xCC, 0) := by decide
theorem test_A11_add_carries : see (given 0x8124 1 0xC8 2 0x64) (regs 1 15) = some (0x202, 0x2C, 1) := by decide
theorem test_A16_add_result_wins : see (given 0x8F14 15 0xF0 1 0x20) (regs 15 1) = some (0x202, 0x10, 0x20) := by decide
theorem test_A19_sub_borrows : see (given 0x8125 1 0x03 2 0x0A) (regs 1 15) = some (0x202, 0xF9, 0) := by decide
theorem test_A20_sub_equal : see ((given 0x8125 1 7 2 7).writeV 15 1) (regs 1 15) = some (0x202, 0, 0) := by decide
theorem test_A24_shr : see (given 0x8126 1 0x05 2 0xEE) (fun t => (regs 1 15 t, t.readV 2)) =
    some ((0x202, 0x02, 1), 0xEE) := by decide
theorem test_A28_shr_result_wins : see (given 0x8F06 15 0x06 0 0) (regs 15 0) = some (0x202, 0x03, 0) := by decide
theorem test_A29_subn : see (given 0x8127 1 0x03 2 0x0A) (regs 1 15) = some (0x202, 0x07, 1) := by decide
theorem test_A31_subn_equal : see ((given 0x8127 1 7 2 7).writeV 15 1) (regs 1 15) = some (0x202, 0, 0) := by decide
theorem test_A33_shl : see (given 0x812E 1 0x81 2 0xEE) (fun t => (regs 1 15 t, t.readV 2)) =
    some ((0x202, 0x02, 1), 0xEE) := by decide
theorem test_A34_shl : see (given 0x812E 1 0x7F 2 0) (regs 1 15) = some (0x202, 0xFE, 0) := by decide

/-- A37: the effect for the draw 0xA7. -/
theorem test_A37_rnd : ((fetching 0xC30F).maskedDraw 3 0x0F 0xA7).readV 3 = 0x07 := by decide

theorem test_M2_ld_i : see { fetching 0xA000 with i := 0xFFFF } (fun t => (t.pc, t.i)) = some (0x202, 0) := by decide
theorem test_M4_add_i_no_flag : see { given 0xF21E 2 1 15 0 with i := 0xFFF } (fun t => (t.i, t.readV 15)) =
    some (0x1000, 0) := by decide
theorem test_M5_add_i_wraps : see { given 0xF21E 2 2 15 0 with i := 0xFFFF } State.i = some 1 := by decide
theorem test_M8_ld_f : see (given 0xF429 4 0x0F 0 0) State.i = some 0x4B := by decide
theorem test_M10_ld_f_no_mask : see (given 0xF429 4 0xFF 0 0) State.i = some 0x4FB := by decide
theorem test_M11_ld_b : see { given 0xF033 0 0xEA 1 0 with i := 0x300 } (fun t => (t.loadBytes 0x300 3, t.i)) =
    some ([2, 3, 4], 0x300) := by decide
theorem test_M15_ld_b_wraps : see { given 0xF033 0 9 1 0 with i := 0xFFF } (fun t => t.loadBytes 0xFFF 3) =
    some [0, 0, 9] := by decide
theorem test_M17_ld_mem : see { (given 0xF255 0 0x11 1 0x22).writeV 2 0x33 with i := 0x400 }
    (fun t => (t.loadBytes 0x400 4, t.i)) = some ([0x11, 0x22, 0x33, 0], 0x400) := by decide
theorem test_M18_ld_mem_one : see { given 0xF055 0 0xAB 1 0x22 with i := 0x400 } (fun t => t.loadBytes 0x400 2) =
    some [0xAB, 0] := by decide
theorem test_M20_ld_v_mem : see ((reading 0xF265 0x300 [2, 3, 4]).writeV 3 0x99)
    (fun t => (regs 0 1 t, t.readV 2, t.readV 3, t.i)) = some ((0x202, 2, 3), 4, 0x99, 0x300) := by decide
theorem test_M21_ld_v_font : see (fetching 0xF465) (fun t => [t.readV 0, t.readV 1, t.readV 2, t.readV 3, t.readV 4]) =
    some [0xF0, 0x90, 0x90, 0x90, 0xF0] := by decide

/-- `s` with the pixels of a list set. -/
def lit (s : State) (ps : List Pixel) : State := { s with disp := (Display.togglePixels s.disp false ps).1 }

/-- Some pixels, VF, and the display hint. -/
def screen (ps : List Pixel) (t : State) : List Bool × Byte × Bool :=
  (ps.map (Display.pixel t.disp), t.readV 15, t.displayChanged)

theorem test_G1_cls : see (lit (fetching 0x00E0) [(3, 4), (63, 31)]) (screen [(3, 4), (63, 31)]) =
    some ([false, false], 0, true) := by decide
theorem test_G4_drw_collides : see (lit (reading 0xD121 0x300 [0x80]) [(0, 0)]) (screen [(0, 0)]) =
    some ([false], 1, true) := by decide
theorem test_G6_drw_wraps : see ((reading 0xD121 0x300 [0xC0]).writeV 1 63) (screen [(63, 0), (0, 0), (1, 0)]) =
    some ([true, true, false], 0, true) := by decide

/-- `s` with key `k` pressed. -/
def pressing (k : Fin 16) (s : State) : State := s.keyDown k

theorem test_K2_skp : see (given 0xE59E 5 0x0A 0 0) State.pc = some 0x202 := by decide
theorem test_K5_skp_low_nibble : see (pressing 10 (given 0xE59E 5 0x1A 0 0)) State.pc = some 0x204 := by decide
theorem test_K3_sknp : see (pressing 10 (given 0xE5A1 5 0x0A 0 0)) State.pc = some 0x202 := by decide
theorem test_K4_sknp : see (given 0xE5A1 5 0x0A 0 0) State.pc = some 0x204 := by decide
theorem test_K6_ld_v_dt : see { fetching 0xF307 with dt := 0x2C } (regs 3 0) = some (0x202, 0x2C, 0) := by decide
theorem test_K7_ld_dt_v : see (given 0xF315 3 0x3C 0 0) (fun t => (t.pc, t.dt, t.st)) = some (0x202, 0x3C, 0) := by decide
theorem test_K8_ld_st_v : see (given 0xF318 3 5 0 0) (fun t => (t.dt, t.st, t.soundActive)) = some (0, 5, true) := by decide
theorem test_K13_ld_k_waits : see (given 0xF20A 2 0x99 0 0) (regs 2 0) = some (0x200, 0x99, 0) := by decide
theorem test_K15_ld_k_least : see (pressing 9 (pressing 4 (given 0xF20A 2 0x99 0 0))) (regs 2 0) =
    some (0x202, 4, 0) := by decide

theorem test_K10_tick : see { State.reset with dt := 5, st := 1, schedule := [.tick] }
    (fun t => (t.dt, t.st, t.soundActive, t.pc)) = some (4, 0, false, 0x200) := by decide
theorem test_K11_tick_at_zero : see { State.reset with schedule := [.tick] } (fun t => (t.dt, t.st)) =
    some (0, 0) := by decide
theorem test_X1_unknown : see (fetching 0x5121) (fun t => (t.status, t.pc, t.changed)) =
    some (.halted .unknownOpcode 0x5121 0x200, 0x200, false) := by decide

/-- A halted machine, as X1 leaves it. -/
def halted : State := (fetching 0x5121).raise .unknownOpcode 0x5121

theorem test_X3_tick_while_halted : see { halted with dt := 3, schedule := [.tick] } State.dt = some 2 := by decide
theorem test_X7_load : see { pressing 2 (lit (given 0x0000 0 7 1 0) [(1, 1)]).advance with schedule := [.load [0x12, 0x00]] }
    (fun t => (regs 0 1 t, t.key[2], t.fetchWord, screen [(1, 1)] t)) =
    some ((0x200, 0, 0), true, 0x1200, [false], 0, true) := by decide
theorem test_X8_step_after_reset : see State.reset State.pc = some 0x202 := by decide

/-- 2.8, step 1: the word straddles the top of memory. -/
theorem test_fetch_at_the_top : see { (fetching 0x0000).storeBytes 0xFFF [0x60] with pc := 0x0FFF } (regs 0 1) =
    some (0x1001, 0xF0, 0) := by decide

theorem test_table_word : decodeTableWord 16 0xD125 = some (.drw 1 2 5) := by decide

/-! ## Witnesses: for each statement with hypotheses, a state and operands that meet all of them together. Where a
statement has several clauses, or a hypothesis has cases, each gets one, at a boundary where there is one. -/

theorem witness_DecodeAfterEncodeGivesTheInstruction : ∃ i : Instr, i.wellFormed = true := ⟨.sys 0x0EF, by decide⟩

theorem witness_EncodeAfterDecodeGivesTheWord : ∃ (op : Word) (i : Instr), decodeWord op = .ok i :=
  ⟨0xFF65, .ldVxMem 15, by decide⟩

/-- With nothing scheduled the environment's next event is a Step. -/
theorem step_is_next (s : State) (h : s.schedule = []) : StepIsNext s s := .inl ⟨h, rfl⟩

/-- And with a Step scheduled it is that Step. -/
theorem scheduled_step_is_next (s : State) (rest : List Event) :
    StepIsNext { s with schedule := .step :: rest } { s with schedule := rest } := .inr ⟨rest, rfl, rfl⟩

theorem witness_StepExecutesTheDecodedInstruction :
    ∃ (s t : State) (i : Instr), StepIsNext s t ∧ t.status = .running ∧ decodeWord t.fetchWord = .ok i :=
  ⟨fetching 0x8F14, _, .addReg 15 1, step_is_next _ rfl, rfl, by decide⟩

theorem witness_StepExecutesTheDecodedInstruction_scheduled :
    ∃ (s t : State) (i : Instr), StepIsNext s t ∧ t.status = .running ∧ decodeWord t.fetchWord = .ok i :=
  ⟨_, _, .call 0x300, scheduled_step_is_next (fetching 0x2300) [.tick], rfl, by decide⟩

theorem witness_UnknownOpcodeHaltsPrecisely :
    ∃ s t : State, StepIsNext s t ∧ t.status = .running ∧ ∀ i, decodeWord t.fetchWord ≠ .ok i := by
  refine ⟨fetching 0x5121, _, step_is_next _ rfl, rfl, fun i h => ?_⟩
  have e : decodeWord (fetching 0x5121).fetchWord = .error (.unknownOpcode 0x5121) := by decide
  rw [e] at h
  cases h

theorem witness_HaltedStepChangesNothing :
    ∃ (s t : State) (kind : FaultKind) (op pc : Word), StepIsNext s t ∧ t.status = .halted kind op pc :=
  ⟨halted, _, _, _, _, step_is_next _ rfl, rfl⟩

theorem witness_CallPushesTheNextAddressAndJumps :
    ∃ (s : State) (j : Fin 16), s.sp.val < 16 ∧ j.val = s.sp.val := ⟨{ State.reset with sp := 15 }, 15, by decide⟩

theorem witness_ReturnPopsTheMostRecentAddress :
    ∃ (s : State) (j : Fin 16), 0 < s.sp.val ∧ j.val + 1 = s.sp.val := ⟨{ State.reset with sp := 16 }, 15, by decide⟩

theorem witness_ReturnPopsTheMostRecentAddress_one :
    ∃ (s : State) (j : Fin 16), 0 < s.sp.val ∧ j.val + 1 = s.sp.val := ⟨{ State.reset with sp := 1 }, 0, by decide⟩

theorem witness_StackFaultsHaltPrecisely_call : ∃ s : State, s.sp.val = 16 := ⟨{ State.reset with sp := 16 }, by decide⟩

theorem witness_StackFaultsHaltPrecisely_ret : ∃ s : State, s.sp.val = 0 := ⟨State.reset, by decide⟩

theorem witness_ReturnResumesAfterTheCall :
    ∃ (nnn : Addr) (s t t' : State) (j : Fin 16), s.sp.val < 16 ∧ exec (.call nnn) s = .next t ∧ t'.sp = t.sp ∧
      t'.stack = t.stack ∧ j.val < s.sp.val :=
  ⟨0x300, { State.reset with sp := 15 }, _, _, 14, by decide, rfl, rfl, rfl, by decide⟩

theorem witness_RegisterSkipsCompare :
    ((given 0x332A 3 0x2A 0 0).readV 3).toNat = 0x2A ∧ ((given 0x332B 3 0x2A 0 0).readV 3).toNat ≠ 0x2B ∧
      ((given 0x5120 1 7 2 7).readV 1).toNat = ((given 0x5120 1 7 2 7).readV 2).toNat ∧
      ((given 0x9120 1 7 2 8).readV 1).toNat ≠ ((given 0x9120 1 7 2 8).readV 2).toNat := by decide

/-- The flag clauses: a register next to VF, and V0. -/
theorem witness_AddRegisterSetsCarry : (14 : Reg) ≠ 15 ∧ (0 : Reg) ≠ 15 := by decide

theorem witness_SubtractSetsStrictlyGreaterFlag : (14 : Reg) ≠ 15 ∧ (0 : Reg) ≠ 15 := by decide

theorem witness_ReverseSubtractSetsStrictlyGreaterFlag : (14 : Reg) ≠ 15 ∧ (0 : Reg) ≠ 15 := by decide

theorem witness_ShiftsMoveOneBitOutIntoTheFlag : (14 : Reg) ≠ 15 ∧ (0 : Reg) ≠ 15 := by decide

theorem witness_BitwiseInstructionsActOnEachBit : ∃ b : Nat, b < 8 := ⟨7, by decide⟩

theorem witness_RandomIsTheMaskedDraw : ∃ (kk : Byte) (b : Nat), b < 8 ∧ kk.getLsbD b = false := ⟨0x7F, 7, by decide⟩

theorem witness_FlagIsZeroOrOne_alu : ∃ (i : Instr) (s t : State), i.leavesFlag ∧ exec i s = .next t :=
  ⟨.subReg 14 15, State.reset, _, .inl ⟨14, 15, by decide, .inr (.inl rfl)⟩, rfl⟩

theorem witness_FlagIsZeroOrOne_draw : ∃ (i : Instr) (s t : State), i.leavesFlag ∧ exec i s = .next t :=
  ⟨.drw 15 15 0, State.reset, _, .inr ⟨15, 15, 0, rfl⟩, rfl⟩

/-- The greatest and the least register number of a block, and the one just above it. -/
theorem witness_BlockStoreCopiesTheRegisters : (15 : Reg) ≤ 15 ∧ (0 : Reg) ≤ 0 ∧ ¬ (1 : Reg) ≤ 0 := by decide

theorem witness_BlockLoadCopiesTheMemory : (15 : Reg) ≤ 15 ∧ (0 : Reg) ≤ 0 ∧ ¬ (1 : Reg) ≤ 0 := by decide

/-- Cells inside a store that wraps at the top of memory, and the one just after it. -/
theorem witness_stored_cells : CellsFrom 0xFFF 3 0xFFF ∧ CellsFrom 0xFFF 3 1 ∧ ¬ CellsFrom 0xFFF 3 2 :=
  ⟨⟨0, by decide⟩, ⟨2, by decide⟩, fun ⟨k, hk, e⟩ => by omega⟩

theorem witness_StoredInstructionIsFetchedNext :
    ∃ (x : Reg) (s t : State), 1 ≤ x.val ∧ s.dataAddr % 4096 = (s.pc.toNat + 2) % 4096 ∧
      exec (.ldMemVx x) s = .next t :=
  ⟨1, { State.reset with i := 0x1000, pc := 0xFFE }, _, by decide, by decide, rfl⟩

theorem witness_ReadAfterWriteByCell : (0x1FFF % 4096 = 0xFFF % 4096) ∧ (0x1000 % 4096 ≠ 0xFFF % 4096) := by decide

theorem witness_CanonicalMemoriesReadingAlikeAreEqual :
    ∃ m n : Memory, m.wf ∧ n.wf ∧ m.font = n.font ∧ (∀ a, m.read a = n.read a) ∧ m.cells ≠ [] :=
  ⟨{ font := customaryFont, cells := [(0, 1), (4095, 2)] }, _, by decide, by decide, rfl, fun _ => rfl, by decide⟩

theorem witness_DrawTogglesTheCoveredPixels :
    SpriteCovers ((reading 0xD121 0x300 [0xC0]).writeV 1 63) 1 2 1 (0, 0) ∧
      ¬ SpriteCovers ((reading 0xD121 0x300 [0xC0]).writeV 1 63) 1 2 1 (1, 1) := by
  refine ⟨⟨0, 1, by decide, by decide, by decide, by decide, by decide⟩, ?_⟩
  rintro ⟨row, col, hr, -, -, -, hy⟩
  have hr : row < 1 := hr
  have e : (((reading 0xD121 0x300 [0xC0]).writeV 1 63).readV 2).toNat = 0 := by decide
  rw [e] at hy
  change 1 = _ at hy
  omega

theorem witness_DrawingTwiceRestoresTheDisplay :
    ∃ (x y : Reg) (n : Fin 16) (s t u : State), exec (.drw x y n) s = .next t ∧ t.readV x = s.readV x ∧
      t.readV y = s.readV y ∧ exec (.drw x y n) t = .next u :=
  ⟨14, 0, 15, reading 0xDE0F 0xFFF [0x81], _, _, rfl, by decide, by decide, rfl⟩

theorem witness_DrawingTwiceRestoresTheDisplay_VF :
    ∃ (x y : Reg) (n : Fin 16) (s t u : State), exec (.drw x y n) s = .next t ∧ t.readV x = s.readV x ∧
      t.readV y = s.readV y ∧ exec (.drw x y n) t = .next u :=
  ⟨15, 15, 1, reading 0xDFF1 0x300 [0x80], _, _, rfl, by decide, by decide, rfl⟩

theorem witness_HintSaysWhetherAPixelDiffers :
    ∃ s t u : State, StepIsNext s t ∧ t.status = .running ∧ step s = .next u :=
  ⟨lit (fetching 0x00E0) [(63, 31)], _, _, step_is_next _ rfl, rfl, rfl⟩

theorem witness_KeySkipsTestTheNamedKey :
    ∃ (s : State) (x : Reg) (k j : Fin 16), k.val = (s.readV x).toNat % 16 ∧ s.key[k] = true ∧ s.key[j] = false :=
  ⟨pressing 15 (given 0 0 0xFF 1 0), 0, 15, 0, by decide⟩

theorem witness_WaitForKeyTakesTheLeastPressedKey_none : ∃ s : State, ∀ k : Fin 16, s.key[k] = false :=
  ⟨State.reset, by decide⟩

theorem witness_WaitForKeyTakesTheLeastPressedKey_some :
    ∃ (s : State) (k : Fin 16), s.key[k] = true ∧ (∀ j : Fin 16, j < k → s.key[j] = false) :=
  ⟨pressing 15 State.reset, 15, by decide, by decide⟩

/-- Every event has states in which it is the next one. -/
theorem witness_scheduled (s : State) (e : Event) (rest : List Event) : ∃ t : State, t.schedule = e :: rest :=
  ⟨{ s with schedule := e :: rest }, rfl⟩

theorem witness_StepAppliesTheScheduledEvent : ∃ (s : State) (rest : List Event), s.schedule = .tick :: rest :=
  ⟨{ State.reset with schedule := [.tick, .keyDown 15] }, _, rfl⟩

theorem witness_BuzzerSoundsUntilTheLastTick :
    ∃ (s t : State) (rest : List Event), s.schedule = .tick :: rest ∧ step s = .next t :=
  ⟨{ State.reset with st := 1, schedule := [.tick] }, _, [], rfl, rfl⟩

theorem witness_KeyEventsWriteOneKey : (14 : Fin 16) ≠ 15 ∧ (1 : Fin 16) ≠ 0 := by decide

/-- A program of the greatest size a Load accepts. -/
theorem witness_LoadResetsAllButTheKeys :
    ∃ (s : State) (rom : List Byte) (rest : List Event), s.schedule = .load rom :: rest ∧ rom.length ≤ 3584 :=
  ⟨{ halted with schedule := [.load (List.replicate 3584 0x12)] }, _, [], rfl, List.length_replicate.le⟩

/-- Its clauses about cells: the last font cell, the first cell above it, and the last cell below and the first at and
above the program. -/
theorem witness_LoadResetsAllButTheKeys_cells :
    0x1000 % 4096 < 80 ∧ 79 % 4096 < 80 ∧ (80 ≤ 80 % 4096 ∧ 80 % 4096 < 0x200) ∧ 0x1FF % 4096 < 0x200 ∧
      0x200 + ([0x12, 0x00] : List Byte).length ≤ 0x202 % 4096 := by decide

/-- One byte more than a Load accepts. -/
theorem witness_OversizeLoadChangesNothing : ∃ rom : List Byte, 3584 < rom.length :=
  ⟨List.replicate 3585 0x12, by rw [List.length_replicate]; decide⟩

theorem witness_ConstructResetsEveryElement : ∃ (s : State) (rest : List Event), s.schedule = .construct :: rest :=
  ⟨{ halted with schedule := [.construct] }, [], rfl⟩

theorem witness_InstructionsWriteOnlyTheirElements_runs :
    ∃ (i : Instr) (s t : State), s.status = .running ∧ exec i s = .next t ∧ t.status = .running :=
  ⟨.ldVxMem 15, State.reset, _, rfl, rfl, rfl⟩

theorem witness_InstructionsWriteOnlyTheirElements_halts :
    ∃ (i : Instr) (s t : State), s.status = .running ∧ exec i s = .next t ∧ t.status ≠ .running :=
  ⟨.ret, State.reset, _, rfl, rfl, by decide⟩

theorem witness_ProgramCounterDiscipline_faults :
    ∃ (i : Instr) (s t : State), s.status = .running ∧ exec i s = .next t ∧ t.status ≠ .running :=
  ⟨.call 0x300, { State.reset with sp := 16 }, _, rfl, rfl, by decide⟩

theorem witness_ProgramCounterDiscipline_advances :
    ∃ (i : Instr) (s t : State), s.status = .running ∧ exec i s = .next t ∧ t.status = .running ∧ ¬ i.setsPc :=
  ⟨.ldVxK 0, State.reset, _, rfl, rfl, rfl, by rintro (h | ⟨_, h | h | h⟩) <;> cases h⟩

theorem witness_SoundTimerAndHintAreNotRead : ∃ (i : Instr) (s t : State), exec i s = .next t :=
  ⟨.ldStVx 0, { State.reset with st := 1, changed := true }, _, rfl⟩

theorem witness_OnlyLoadOrConstructLeavesHalt : ∃ s t : State, s.status ≠ .running ∧ step s = .next t :=
  ⟨halted, _, by decide, rfl⟩

theorem witness_OnlyLoadOrConstructLeavesHalt_load : ∃ s t : State, s.status ≠ .running ∧ step s = .next t ∧
    t.status = .running := ⟨{ halted with schedule := [.load []] }, _, by decide, rfl, by decide⟩

theorem witness_OnlyKeyEventsAndConstructWriteKeys : ∃ s t : State, step s = .next t ∧ t.key ≠ s.key :=
  ⟨{ State.reset with schedule := [.keyDown 15] }, _, rfl, by decide⟩

theorem witness_OnlyKeyEventsAndConstructWriteKeys_construct : ∃ s t : State, step s = .next t ∧ t.key ≠ s.key :=
  ⟨{ pressing 0 State.reset with schedule := [.construct] }, _, rfl, by decide⟩

theorem witness_StepKeepsTheInvariant_running : ∃ s t : State, s.Inv ∧ step s = .next t :=
  ⟨{ State.reset with sp := 16 }, _, ⟨Memory.empty_wf _, trivial⟩, rfl⟩

theorem witness_StepKeepsTheInvariant_halted : ∃ s t : State, s.Inv ∧ s.status ≠ .running ∧ step s = .next t :=
  ⟨halted, _, ⟨by decide, by decide, by decide, by decide, show decodeWord 0x5121 = .error (.unknownOpcode 0x5121) by decide⟩,
    by decide, rfl⟩

theorem witness_StepKeepsTheParameters : ∃ s t : State, step s = .next t := ⟨fetching 0xC3FF, _, rfl⟩

theorem witness_ResetValues : 80 ≤ 80 % 4096 ∧ 80 ≤ 0xFFF % 4096 := by decide

end Sys2Proof.Tests
end

/-! PROOFS. The decoder and the opcode map (30_encoding.md R82, R86, R87). A word's first nibble leaves only the rows of its
own family in question; within a family the remaining mask bits are the low nibble or the low byte the decoder looks at. -/

namespace Sys2Proof.Machine

/-- The word fits the row's mask and match (30_encoding.md R86). -/
def OpcodeRow.fits (row : OpcodeRow) (op : Word) : Bool := op &&& row.mask == row.pattern

/-- The rows of the opcode map whose pattern begins with the nibble `f`, in its order (30_encoding.md R82). -/
def familyRows (f : Nat) : List OpcodeRow := opcodeMap.filter fun row => bitSlice row.pattern 15 12 == f

/-! ## A word fits only rows of its own family -/

theorem bitSlice_15_12_eq_iff (v w : Word) :
    bitSlice v 15 12 = bitSlice w 15 12 ↔ v &&& 0xF000#16 = w &&& 0xF000#16 := by
  rw [← BitVec.toNat_inj, and_F000_toNat, and_F000_toNat, bitSlice_15_12, bitSlice_15_12]
  omega

/-- No mask of the opcode map leaves out a bit of the first nibble. -/
theorem opcodeMap_mask_keeps_topNibble : ∀ row ∈ opcodeMap, row.mask &&& 0xF000#16 = 0xF000#16 := by
  simp [opcodeMap, opcodeRows1, opcodeRows2, opcodeRows3]

theorem OpcodeRow.family_of_fits {row : OpcodeRow} {op : Word} (hrow : row ∈ opcodeMap) (h : row.fits op = true) :
    bitSlice row.pattern 15 12 = bitSlice op 15 12 := by
  have hp : op &&& row.mask = row.pattern := by simpa [OpcodeRow.fits] using h
  rw [bitSlice_15_12_eq_iff, ← hp, BitVec.and_assoc, opcodeMap_mask_keeps_topNibble row hrow]

theorem selectedRow_eq_find_familyRows {op : Word} {f : Nat} (hf : bitSlice op 15 12 = f) :
    selectedRow op = ((familyRows f).find? (·.fits op)).map OpcodeRow.number := by
  rw [familyRows, List.find?_filter, selectedRow]
  congr 1
  refine List.find?_congr fun row hrow => ?_
  cases hfit : row.fits op with
  | false => simpa [OpcodeRow.fits] using hfit
  | true => simpa [OpcodeRow.fits, OpcodeRow.family_of_fits hrow hfit, hf] using hfit

/-! ## When a word fits a row, by its mask -/

theorem fits_FFFF (n : Nat) (p op : Word) : OpcodeRow.fits ⟨n, 0xFFFF#16, p⟩ op = decide (op = p) := by
  rw [OpcodeRow.fits, beq_eq_decide, show 0xFFFF#16 = BitVec.allOnes 16 from rfl, BitVec.and_allOnes]

theorem fits_F000 (n : Nat) (p op : Word) :
    OpcodeRow.fits ⟨n, 0xF000#16, p⟩ op = decide (bitSlice op 15 12 = p.toNat / 4096 ∧ 0 = p.toNat % 4096) := by
  rw [OpcodeRow.fits, beq_eq_decide, decide_eq_decide, ← BitVec.toNat_inj, and_F000_toNat, bitSlice_15_12]
  dsimp only
  omega

theorem fits_F00F (n : Nat) (p op : Word) :
    OpcodeRow.fits ⟨n, 0xF00F#16, p⟩ op =
      decide (bitSlice op 15 12 = p.toNat / 4096 ∧ bitSlice op 3 0 = p.toNat % 4096) := by
  rw [OpcodeRow.fits, beq_eq_decide, decide_eq_decide, ← BitVec.toNat_inj, and_F00F_toNat, bitSlice_15_12, bitSlice_3_0]
  dsimp only
  omega

theorem fits_F0FF (n : Nat) (p op : Word) :
    OpcodeRow.fits ⟨n, 0xF0FF#16, p⟩ op =
      decide (bitSlice op 15 12 = p.toNat / 4096 ∧ bitSlice op 7 0 = p.toNat % 4096) := by
  rw [OpcodeRow.fits, beq_eq_decide, decide_eq_decide, ← BitVec.toNat_inj, and_F0FF_toNat, bitSlice_15_12, bitSlice_7_0]
  dsimp only
  omega

/-! ## The row selected and the row decoded, family by family -/

/-- The row of R86 a decoder's answer stands for. -/
def decodedRow (answer : Except DecodeError Instr) : Option Nat := answer.toOption.map rowNumber

@[simp] theorem decodedRow_ok (i : Instr) : decodedRow (.ok i) = some (rowNumber i) := rfl

@[simp] theorem decodedRow_error (e : DecodeError) : decodedRow (.error e) = none := rfl

/-- A family of one row that the first nibble alone decides. -/
theorem selectedRow_of_wholeFamily {op p : Word} {f n : Nat} (hf : bitSlice op 15 12 = f)
    (hrows : familyRows f = [⟨n, 0xF000#16, p⟩]) (hp : p.toNat = f * 4096) : selectedRow op = some n := by
  have hfit : OpcodeRow.fits ⟨n, 0xF000#16, p⟩ op = true := by
    rw [fits_F000, hf, hp]
    simp
  simp [selectedRow_eq_find_familyRows hf, hrows, hfit]

/-- A family of one row that wants the low nibble to be 0. -/
theorem selectedRow_of_lowNibbleZero {op p : Word} {f n : Nat} {i : Instr} (hf : bitSlice op 15 12 = f)
    (hrows : familyRows f = [⟨n, 0xF00F#16, p⟩]) (hp : p.toNat = f * 4096) (hi : rowNumber i = n) :
    selectedRow op = decodedRow (decodeLowNibbleZero op i) := by
  have hfit : OpcodeRow.fits ⟨n, 0xF00F#16, p⟩ op = decide (bitSlice op 3 0 = 0) := by
    rw [fits_F00F, hf, hp]
    simp
  rw [selectedRow_eq_find_familyRows hf, hrows, decodeLowNibbleZero]
  by_cases h : bitSlice op 3 0 = 0 <;> simp [List.find?, hfit, h, hi]

/-- Rows 1 and 2 come before the no-op of row 3 (30_encoding.md R87), as the decoder's tests do. -/
theorem selectedRow_family0 {op : Word} (hf : bitSlice op 15 12 = 0) :
    selectedRow op = decodedRow (.ok (decodeFamily0 op)) := by
  rw [selectedRow_eq_find_familyRows hf, show familyRows 0 = opcodeRows1.take 3 from rfl, decodeFamily0]
  by_cases hcls : op = 0x00E0#16
  · simp [opcodeRows1, fits_FFFF, hcls, rowNumber]
  · by_cases hret : op = 0x00EE#16 <;> simp [opcodeRows1, List.find?, fits_FFFF, fits_F000, hcls, hret, hf, rowNumber]

/-- Rows 11 to 19 are told apart by the low nibble, the slice the decoder splits on. -/
theorem selectedRow_family8 {op : Word} (hf : bitSlice op 15 12 = 8) :
    selectedRow op = decodedRow (decodeFamily8 op) := by
  rw [selectedRow_eq_find_familyRows hf, show familyRows 8 = opcodeRows2.take 9 from rfl, decodeFamily8]
  split <;> simp_all [opcodeRows2, List.find?, fits_F00F, rowNumber]

/-- Rows 25 and 26 are told apart by the low byte, the slice the decoder splits on. -/
theorem selectedRow_familyE {op : Word} (hf : bitSlice op 15 12 = 14) :
    selectedRow op = decodedRow (decodeFamilyE op) := by
  rw [selectedRow_eq_find_familyRows hf, show familyRows 14 = (opcodeRows3.drop 4).take 2 from rfl, decodeFamilyE]
  split <;> simp_all [opcodeRows3, List.find?, fits_F0FF, rowNumber]

/-- Rows 27 to 35 are told apart by the low byte, the slice the decoder splits on. -/
theorem selectedRow_familyF {op : Word} (hf : bitSlice op 15 12 = 15) :
    selectedRow op = decodedRow (decodeFamilyF op) := by
  rw [selectedRow_eq_find_familyRows hf, show familyRows 15 = opcodeRows3.drop 6 from rfl, decodeFamilyF]
  split <;> simp_all [opcodeRows3, List.find?, fits_F0FF, rowNumber]

theorem selectedRow_eq_decodedRow (op : Word) : selectedRow op = decodedRow (decodeWord op) := by
  unfold decodeWord
  split
  case h_1 hf => exact selectedRow_family0 hf
  case h_6 hf | h_10 hf => exact selectedRow_of_lowNibbleZero hf rfl rfl rfl
  case h_2 hf | h_3 hf | h_4 hf | h_5 hf | h_7 hf | h_8 hf | h_11 hf | h_12 hf | h_13 hf | h_14 hf =>
    exact selectedRow_of_wholeFamily hf rfl rfl
  case h_9 hf => exact selectedRow_family8 hf
  case h_15 hf => exact selectedRow_familyE hf
  case h_16 =>
    have hlt : bitSlice op 15 12 < 16 := bitSlice_lt op 15 12
    have hf : bitSlice op 15 12 = 15 := by simp only [imp_false] at *; omega
    exact selectedRow_familyF hf

/-- Settles O3: in each family the decoder looks at the very bits the masks of the family's rows keep. -/
theorem decoderSelectsTheRowOfTheOpcodeMap : Obligations.DecoderSelectsTheRowOfTheOpcodeMap := by
  intro op
  rw [selectedRow_eq_decodedRow]
  cases decodeWord op <;> rfl

end Sys2Proof.Machine

/-! PROOFS. The two jumps without a stack (40_flow.md R102, R105). A format A word decodes by its first nibble alone; a jump
writes only the program counter; and zero-extended operands keep their numbers, so that V0 + nnn stays below 2 ^ 16. -/

namespace Sys2Proof.Machine

/-! ## Decoding a format A word (30_encoding.md R85) -/

theorem bitSlice_formatA (k : Nat) (hk : k < 16) (nnn : Addr) : bitSlice (formatA k nnn) 15 12 = k := by
  have := nnn.isLt
  rw [bitSlice_15_12, formatA_toNat k hk]
  omega

theorem fieldNnn_formatA (k : Nat) (hk : k < 16) (nnn : Addr) : fieldNnn (formatA k nnn) = nnn := by
  apply fieldNnn_eq
  have := nnn.isLt
  rw [formatA_toNat k hk]
  omega

theorem decodeWord_encode_jp (nnn : Addr) : decodeWord (encode (.jp nnn)) = .ok (.jp nnn) := by
  simp [encode, decodeWord, bitSlice_formatA, fieldNnn_formatA]

theorem decodeWord_encode_jpV0 (nnn : Addr) : decodeWord (encode (.jpV0 nnn)) = .ok (.jpV0 nnn) := by
  simp [encode, decodeWord, bitSlice_formatA, fieldNnn_formatA]

/-! ## Jump targets and the frame of a jump -/

@[simp] theorem addrWord_toNat (nnn : Addr) : (addrWord nnn).toNat = nnn.toNat :=
  BitVec.toNat_setWidth_of_le (by decide)

@[simp] theorem byteWord_toNat (b : Byte) : (byteWord b).toNat = b.toNat :=
  BitVec.toNat_setWidth_of_le (by decide)

/-- The sum is at most 0xFF + 0xFFF = 0x10FE (40_flow.md R105). -/
theorem byteWord_add_addrWord_toNat (b : Byte) (nnn : Addr) :
    (byteWord b + addrWord nnn).toNat = b.toNat + nnn.toNat := by
  have := b.isLt
  have := nnn.isLt
  rw [BitVec.toNat_add, byteWord_toNat, addrWord_toNat]
  omega

theorem jumpTo_keeps (s : State) (target : Word) : Keeps {} s (s.jumpTo target) :=
  ⟨fun _ _ => rfl, fun _ _ => rfl, fun _ _ => rfl, by simp⟩

/-- Settles O12: the target is the zero-extended operand, and a jump writes nothing but PC. -/
theorem jumpGoesToItsAddress : Obligations.JumpGoesToItsAddress :=
  ⟨decodeWord_encode_jp, fun nnn s => ⟨s.jumpTo (addrWord nnn), rfl, addrWord_toNat nnn, jumpTo_keeps s _⟩⟩

/-- Settles O13: the sum of V0 and the operand fits in PC, and a jump writes nothing but PC. -/
theorem jumpFromV0AddsV0 : Obligations.JumpFromV0AddsV0 :=
  ⟨decodeWord_encode_jpV0, fun nnn s => ⟨s.jumpTo (byteWord (s.readV 0) + addrWord nnn), rfl,
    byteWord_add_addrWord_toNat _ nnn, jumpTo_keeps s _⟩⟩

end Sys2Proof.Machine

/-! PROOFS. The timer tick and the key events (60_exceptions.md R216, R219). One counter's tick is the truncated
predecessor; a key event sets one entry of the key latch, to a value that is all that tells the two events apart. -/

namespace Sys2Proof.Machine

/-! ## One counter -/

/-- Above 0 the subtraction of 1 does not wrap; at 0 truncated subtraction is the no-op (60_exceptions.md R216). -/
@[simp] theorem tickCounter_toNat (c : Byte) : (tickCounter c).toNat = c.toNat - 1 := by
  unfold tickCounter
  split
  case isTrue hpos => exact BitVec.toNat_sub_of_le (BitVec.le_def.mpr hpos)
  case isFalse hzero => omega

/-! ## One key of the latch -/

theorem keyLatch_set_writes_one (keys : Vector Bool 16) (k : Fin 16) (pressed : Bool) :
    (keys.set k pressed)[k] = pressed ∧ ∀ j : Fin 16, j ≠ k → (keys.set k pressed)[j] = keys[j] :=
  ⟨Vector.getElem_set_self k.isLt,
    fun j hj => Vector.getElem_set_ne k.isLt j.isLt (Fin.val_ne_of_ne hj.symm)⟩

/-! ## The events -/

/-- Settles O44: each timer is one counter's tick, and a Tick writes the two timers only. -/
theorem tickDecrementsEachTimerAboveZero : Obligations.TickDecrementsEachTimerAboveZero :=
  fun s => ⟨tickCounter_toNat s.dt, tickCounter_toNat s.st, rfl⟩

/-- Settles O46: both events are one write to the key latch, with `true` and with `false`. -/
theorem keyEventsWriteOneKey : Obligations.KeyEventsWriteOneKey := by
  constructor <;> intro s k
  case left =>
    obtain ⟨hself, hothers⟩ := keyLatch_set_writes_one s.key k true
    exact ⟨hself, hothers, rfl⟩
  case right =>
    obtain ⟨hself, hothers⟩ := keyLatch_set_writes_one s.key k false
    exact ⟨hself, hothers, rfl⟩

end Sys2Proof.Machine

/-! PROOFS. The result of a Load (70_reset_and_hazards.md R231, R233). The length of the program alone decides the result:
one equation for each side of the limit, and both statements follow from the two. -/

namespace Sys2Proof.Machine

/-! ## The two results of a Load -/

theorem load_of_length_le (s : State) {rom : List Byte} (h : rom.length ≤ 3584) : s.load rom = .ok (s.loaded rom) :=
  if_neg h.not_gt

theorem load_of_length_gt (s : State) {rom : List Byte} (h : 3584 < rom.length) :
    s.load rom = .error .programTooLarge :=
  if_pos h

theorem load_eq_ok_iff (s t : State) (rom : List Byte) :
    s.load rom = .ok t ↔ rom.length ≤ 3584 ∧ s.loaded rom = t := by
  obtain hle | hgt := le_or_gt rom.length 3584
  · simp [load_of_length_le s hle, hle]
  · simp [load_of_length_gt s hgt, hgt]

theorem load_eq_error_iff (s : State) (rom : List Byte) :
    s.load rom = .error .programTooLarge ↔ 3584 < rom.length := by
  obtain hle | hgt := le_or_gt rom.length 3584
  · simp [load_of_length_le s hle, hle]
  · simp [load_of_length_gt s hgt, hgt]

/-! ## The statements -/

/-- Settles O48: the loaded state is the witness of success, and 4096 - 0x200 is the limit 3584. -/
theorem loadAcceptsAtMost3584Bytes : Obligations.LoadAcceptsAtMost3584Bytes := by
  intro s rom
  constructor
  case left => simp [load_eq_ok_iff]
  case right => exact load_eq_error_iff s rom

/-- Settles O49: above the limit the Load reports the error, and of the two states after a Load only the unchanged one is
left. -/
theorem oversizeLoadChangesNothing : Obligations.OversizeLoadChangesNothing := by
  intro s rom tooLong
  obtain ⟨fits, -⟩ | ⟨-, unchanged⟩ := afterLoad_cases s rom
  · exact absurd fits tooLong.not_ge
  · exact ⟨load_of_length_gt s tooLong, unchanged⟩

end Sys2Proof.Machine

/-! PROOFS. The decoder and the encoder undo each other (30_encoding.md R85, R86), and the words that are no instruction
(R88). Of a format's word each slice is one of its fields; and a word is made up of the slices of its format, so that what a
decoder reads is all there is to encode. -/

namespace Sys2Proof.Machine

/-! ## The slices of each format's words -/

@[simp] theorem bitSlice_15_12_formatXK (k : Nat) (hk : k < 16) (x : Reg) (kk : Byte) :
    bitSlice (formatXK k x kk) 15 12 = k := by
  rw [bitSlice_15_12, formatXK_toNat k hk]
  omega

@[simp] theorem fieldX_formatXK (k : Nat) (hk : k < 16) (x : Reg) (kk : Byte) : fieldX (formatXK k x kk) = x := by
  apply fieldX_eq
  rw [formatXK_toNat k hk]
  omega

@[simp] theorem fieldKk_formatXK (k : Nat) (hk : k < 16) (x : Reg) (kk : Byte) : fieldKk (formatXK k x kk) = kk := by
  apply fieldKk_eq
  rw [formatXK_toNat k hk]
  omega

@[simp] theorem bitSlice_15_12_formatXYN (k : Nat) (hk : k < 16) (x y : Reg) (low : Nat) (hl : low < 16) :
    bitSlice (formatXYN k x y low) 15 12 = k := by
  rw [bitSlice_15_12, formatXYN_toNat k hk x y low hl]
  omega

@[simp] theorem bitSlice_3_0_formatXYN (k : Nat) (hk : k < 16) (x y : Reg) (low : Nat) (hl : low < 16) :
    bitSlice (formatXYN k x y low) 3 0 = low := by
  rw [bitSlice_3_0, formatXYN_toNat k hk x y low hl]
  omega

@[simp] theorem fieldX_formatXYN (k : Nat) (hk : k < 16) (x y : Reg) (low : Nat) (hl : low < 16) :
    fieldX (formatXYN k x y low) = x := by
  apply fieldX_eq
  rw [formatXYN_toNat k hk x y low hl]
  omega

@[simp] theorem fieldY_formatXYN (k : Nat) (hk : k < 16) (x y : Reg) (low : Nat) (hl : low < 16) :
    fieldY (formatXYN k x y low) = y := by
  apply fieldY_eq
  rw [formatXYN_toNat k hk x y low hl]
  omega

@[simp] theorem fieldN_formatXYN (k : Nat) (hk : k < 16) (x y : Reg) (n : Fin 16) :
    fieldN (formatXYN k x y n.val) = n := by
  apply fieldN_eq
  rw [formatXYN_toNat k hk x y n.val n.isLt]
  omega

@[simp] theorem bitSlice_15_12_formatX (k : Nat) (hk : k < 16) (x : Reg) (f : Nat) (hf : f < 256) :
    bitSlice (formatX k x f) 15 12 = k := by
  rw [bitSlice_15_12, formatX_toNat k hk x f hf]
  omega

@[simp] theorem bitSlice_7_0_formatX (k : Nat) (hk : k < 16) (x : Reg) (f : Nat) (hf : f < 256) :
    bitSlice (formatX k x f) 7 0 = f := by
  rw [bitSlice_7_0, formatX_toNat k hk x f hf]
  omega

@[simp] theorem fieldX_formatX (k : Nat) (hk : k < 16) (x : Reg) (f : Nat) (hf : f < 256) :
    fieldX (formatX k x f) = x := by
  apply fieldX_eq
  rw [formatX_toNat k hk x f hf]
  omega

/-! ## Decoding a word of each shape -/

/-- The no-op's operand tells its word from those of CLS and RET (30_encoding.md R87). -/
theorem decodeWord_encode_sys {nnn : Addr} (hcls : nnn ≠ 0x0E0) (hret : nnn ≠ 0x0EE) :
    decodeWord (encode (.sys nnn)) = .ok (.sys nnn) := by
  have number : (formatA 0 nnn).toNat = nnn.toNat := by simp [formatA_toNat]
  have not_cls : formatA 0 nnn ≠ 0x00E0#16 := fun e => hcls (BitVec.eq_of_toNat_eq (by rw [← number, e]; rfl))
  have not_ret : formatA 0 nnn ≠ 0x00EE#16 := fun e => hret (BitVec.eq_of_toNat_eq (by rw [← number, e]; rfl))
  simp [encode, decodeWord, decodeFamily0, bitSlice_formatA, fieldNnn_formatA, not_cls, not_ret]

/-- A decoder's tests look at slices that hold the literals of the format, and it reads the fields back whole. -/
theorem decodeWord_encode (i : Instr) (wf : i.wellFormed = true) : decodeWord (encode i) = .ok i := by
  cases i
  case cls | ret => decide
  case sys nnn =>
    obtain ⟨hcls, hret⟩ : nnn ≠ 0x0E0 ∧ nnn ≠ 0x0EE := by simpa [Instr.wellFormed] using wf
    exact decodeWord_encode_sys hcls hret
  case jp nnn | call nnn | ldI nnn | jpV0 nnn => simp [encode, decodeWord, bitSlice_formatA, fieldNnn_formatA]
  case seImm x kk | sneImm x kk | ldImm x kk | addImm x kk | rnd x kk => simp [encode, decodeWord]
  case seReg x y | sneReg x y => simp [encode, decodeWord, decodeLowNibbleZero]
  case ldReg x y | orReg x y | andReg x y | xorReg x y | addReg x y | subReg x y | shr x y | subnReg x y | shl x y =>
    simp [encode, decodeWord, decodeFamily8]
  case drw x y n => simp [encode, decodeWord]
  case skp x | sknp x => simp [encode, decodeWord, decodeFamilyE]
  case ldVxDt x | ldVxK x | ldDtVx x | ldStVx x | addIVx x | ldFVx x | ldBVx x | ldMemVx x | ldVxMem x =>
    simp [encode, decodeWord, decodeFamilyF]

/-- Settles O1: each slice of a format's word is the field encoded there. -/
theorem decodeAfterEncodeGivesTheInstruction : Obligations.DecodeAfterEncodeGivesTheInstruction :=
  decodeWord_encode

/-! ## A word is made up of the slices of its format -/

theorem formatA_fields {op : Word} {k : Nat} (hk : bitSlice op 15 12 = k) : formatA k (fieldNnn op) = op := by
  apply BitVec.eq_of_toNat_eq
  simp only [formatA, fieldNnn, BitVec.toNat_ofNat, ← hk, bitSlice_15_12, bitSlice_11_0]
  omega

theorem formatXK_fields {op : Word} {k : Nat} (hk : bitSlice op 15 12 = k) :
    formatXK k (fieldX op) (fieldKk op) = op := by
  apply BitVec.eq_of_toNat_eq
  simp only [formatXK, fieldX, fieldKk, BitVec.toNat_ofNat, Fin.val_ofNat, ← hk, bitSlice_15_12, bitSlice_11_8,
    bitSlice_7_0]
  omega

theorem formatXYN_fields {op : Word} {k low : Nat} (hk : bitSlice op 15 12 = k) (hl : bitSlice op 3 0 = low) :
    formatXYN k (fieldX op) (fieldY op) low = op := by
  apply BitVec.eq_of_toNat_eq
  simp only [formatXYN, fieldX, fieldY, BitVec.toNat_ofNat, Fin.val_ofNat, ← hk, ← hl, bitSlice_15_12, bitSlice_11_8,
    bitSlice_7_4, bitSlice_3_0]
  omega

theorem formatX_fields {op : Word} {k f : Nat} (hk : bitSlice op 15 12 = k) (hf : bitSlice op 7 0 = f) :
    formatX k (fieldX op) f = op := by
  apply BitVec.eq_of_toNat_eq
  simp only [formatX, fieldX, BitVec.toNat_ofNat, Fin.val_ofNat, ← hk, ← hf, bitSlice_15_12, bitSlice_11_8, bitSlice_7_0]
  omega

theorem bitSlice_3_0_eq_fieldN (op : Word) : bitSlice op 3 0 = (fieldN op).val := by
  simp [fieldN, bitSlice_3_0]

/-! ## What a family's decoder answers stands for the word -/

/-- The instruction is well formed and its word is `op`. -/
def StandsFor (i : Instr) (op : Word) : Prop := i.wellFormed = true ∧ encode i = op

theorem decodeFamily0_standsFor {op : Word} (hf : bitSlice op 15 12 = 0) : StandsFor (decodeFamily0 op) op := by
  have whole : formatA 0 (fieldNnn op) = op := formatA_fields hf
  unfold decodeFamily0
  split
  case isTrue hcls => exact ⟨rfl, hcls.symm⟩
  case isFalse hcls =>
    split
    case isTrue hret => exact ⟨rfl, hret.symm⟩
    case isFalse hret =>
      have not_cls : fieldNnn op ≠ 0x0E0 := fun e => hcls (by rw [← whole, e]; rfl)
      have not_ret : fieldNnn op ≠ 0x0EE := fun e => hret (by rw [← whole, e]; rfl)
      exact ⟨by simpa [Instr.wellFormed] using ⟨not_cls, not_ret⟩, whole⟩

theorem decodeLowNibbleZero_standsFor {op : Word} {i j : Instr} (h : decodeLowNibbleZero op i = .ok j)
    (hi : bitSlice op 3 0 = 0 → StandsFor i op) : StandsFor j op := by
  unfold decodeLowNibbleZero at h
  split at h
  case isTrue hn => cases h; exact hi hn
  case isFalse => cases h

theorem decodeFamily8_standsFor {op : Word} {i : Instr} (hf : bitSlice op 15 12 = 8) (h : decodeFamily8 op = .ok i) :
    StandsFor i op := by
  unfold decodeFamily8 at h
  split at h
  case h_1 hn | h_2 hn | h_3 hn | h_4 hn | h_5 hn | h_6 hn | h_7 hn | h_8 hn | h_9 hn =>
    cases h
    exact ⟨rfl, formatXYN_fields hf hn⟩
  case h_10 => cases h

theorem decodeFamilyE_standsFor {op : Word} {i : Instr} (hf : bitSlice op 15 12 = 14) (h : decodeFamilyE op = .ok i) :
    StandsFor i op := by
  unfold decodeFamilyE at h
  split at h
  case h_1 hb | h_2 hb =>
    cases h
    exact ⟨rfl, formatX_fields hf hb⟩
  case h_3 => cases h

theorem decodeFamilyF_standsFor {op : Word} {i : Instr} (hf : bitSlice op 15 12 = 15) (h : decodeFamilyF op = .ok i) :
    StandsFor i op := by
  unfold decodeFamilyF at h
  split at h
  case h_1 hb | h_2 hb | h_3 hb | h_4 hb | h_5 hb | h_6 hb | h_7 hb | h_8 hb | h_9 hb =>
    cases h
    exact ⟨rfl, formatX_fields hf hb⟩
  case h_10 => cases h

theorem decodeWord_standsFor {op : Word} {i : Instr} (h : decodeWord op = .ok i) : StandsFor i op := by
  unfold decodeWord at h
  split at h
  case h_1 hf => cases h; exact decodeFamily0_standsFor hf
  case h_2 hf | h_3 hf | h_11 hf | h_12 hf => cases h; exact ⟨rfl, formatA_fields hf⟩
  case h_4 hf | h_5 hf | h_7 hf | h_8 hf | h_13 hf => cases h; exact ⟨rfl, formatXK_fields hf⟩
  case h_6 hf | h_10 hf => exact decodeLowNibbleZero_standsFor h fun hn => ⟨rfl, formatXYN_fields hf hn⟩
  case h_9 hf => exact decodeFamily8_standsFor hf h
  case h_14 hf => cases h; exact ⟨rfl, formatXYN_fields hf (bitSlice_3_0_eq_fieldN op)⟩
  case h_15 hf => exact decodeFamilyE_standsFor hf h
  case h_16 =>
    have hlt : bitSlice op 15 12 < 16 := bitSlice_lt op 15 12
    have hf : bitSlice op 15 12 = 15 := by simp only [imp_false] at *; omega
    exact decodeFamilyF_standsFor hf h

/-- Settles O2: in each family what the decoder reads, with the literals it tests, is the whole word. -/
theorem encodeAfterDecodeGivesTheWord : Obligations.EncodeAfterDecodeGivesTheWord :=
  fun _ _ h => decodeWord_standsFor h

/-! ## The words that are no instruction -/

theorem decodeLowNibbleZero_eq_error_iff (op : Word) (i : Instr) :
    decodeLowNibbleZero op i = .error (.unknownOpcode op) ↔ op.toNat % 16 ≠ 0 := by
  rw [decodeLowNibbleZero, bitSlice_3_0]
  split <;> simp_all

theorem decodeFamily8_eq_error_iff (op : Word) :
    decodeFamily8 op = .error (.unknownOpcode op) ↔
      8 ≤ op.toNat % 16 ∧ op.toNat % 16 ≤ 13 ∨ op.toNat % 16 = 15 := by
  rw [decodeFamily8, bitSlice_3_0]
  split
  case h_10 => simp only [imp_false, true_iff] at *; omega
  all_goals simp [*]

theorem decodeFamilyE_eq_error_iff (op : Word) :
    decodeFamilyE op = .error (.unknownOpcode op) ↔ op.toNat % 256 ≠ 0x9E ∧ op.toNat % 256 ≠ 0xA1 := by
  rw [decodeFamilyE, bitSlice_7_0]
  split <;> simp_all

theorem decodeFamilyF_eq_error_iff (op : Word) :
    decodeFamilyF op = .error (.unknownOpcode op) ↔
      op.toNat % 256 ≠ 0x07 ∧ op.toNat % 256 ≠ 0x0A ∧ op.toNat % 256 ≠ 0x15 ∧ op.toNat % 256 ≠ 0x18 ∧
      op.toNat % 256 ≠ 0x1E ∧ op.toNat % 256 ≠ 0x29 ∧ op.toNat % 256 ≠ 0x33 ∧ op.toNat % 256 ≠ 0x55 ∧
      op.toNat % 256 ≠ 0x65 := by
  rw [decodeFamilyF, bitSlice_7_0]
  split <;> simp_all

/-- Settles O4: the first nibble leaves one line of the list in question, and the family's decoder fails just there. -/
theorem illegalWordsAreExactlyTheListedOnes : Obligations.IllegalWordsAreExactlyTheListedOnes := by
  intro op
  have hlt := op.isLt
  unfold decodeWord
  rw [bitSlice_15_12]
  split
  case h_6 hf | h_10 hf => simp [decodeLowNibbleZero_eq_error_iff, hf]
  case h_9 hf => simp [decodeFamily8_eq_error_iff, hf]
  case h_15 hf => simp [decodeFamilyE_eq_error_iff, hf]
  case h_16 =>
    have hf : op.toNat / 4096 = 15 := by simp only [imp_false] at *; omega
    simp [decodeFamilyF_eq_error_iff, hf]
  all_goals simp [*]

/-- Settles O5: nine words are those of well-formed instructions, and the tenth fails its family's test. -/
theorem wordsOfTheSpecDecode : Obligations.WordsOfTheSpecDecode :=
  ⟨decodeWord_encode (.ldImm 0 0x05) rfl, decodeWord_encode (.addImm 0 0x03) rfl, decodeWord_encode (.jp 0x200) rfl,
    decodeWord_encode .ret rfl, decodeWord_encode (.sys 0x0E1) rfl, decodeWord_encode (.subReg 10 11) rfl,
    decodeWord_encode (.drw 10 11 5) rfl, decodeWord_encode (.sknp 10) rfl, decodeWord_encode (.ldVxMem 10) rfl,
    (illegalWordsAreExactlyTheListedOnes _).mpr (.inl (by decide))⟩

end Sys2Proof.Machine

/-! PROOFS. Control flow (40_flow.md): the no-op, the register skips, and the call stack. A push fills the slot SP names and a
pop reads the slot below it, so that the two are a last-in first-out pair (10_state.md R29). -/

namespace Sys2Proof.Machine

/-! ## What every proof about an instruction uses -/

/-- An instruction answers one next state. -/
theorem next_unique {r : Result} {t u : State} (ht : r = .next t) (hu : r = .next u) : t = u :=
  Host.Outcome.next.inj (ht.symm.trans hu)


theorem Keeps.advance {w : Written} {s t : State} (h : Keeps w s t) : Keeps w s t.advance := h

theorem Keeps.skipIf {w : Written} {s t : State} (h : Keeps w s t) (c : Bool) : Keeps w s (t.skipIf c) := h

theorem Keeps.jumpTo {w : Written} {s t : State} (h : Keeps w s t) (target : Word) : Keeps w s (t.jumpTo target) := h

theorem Keeps.refl (w : Written) (s : State) : Keeps w s s :=
  ⟨fun _ _ => rfl, fun _ _ => rfl, fun _ _ => rfl, by simp⟩

theorem advanced_advance (s : State) : Advanced s s.advance := advanced_of_pc rfl

/-- Settles O11: the no-op is the advance. -/
theorem noOpOnlyAdvances : Obligations.NoOpOnlyAdvances :=
  fun _ s => ⟨s.advance, rfl, advanced_advance s, (Keeps.refl _ s).advance⟩

/-! ## Skips -/

theorem byte_beq_iff (a b : Byte) : (a == b) = true ↔ a.toNat = b.toNat := by
  rw [beq_iff_eq, BitVec.toNat_inj]

theorem byte_bne_iff (a b : Byte) : (a != b) = true ↔ a.toNat ≠ b.toNat := by
  rw [bne_iff_ne, BitVec.toNat_ne_iff_ne]

/-- What every skip is, when its test means `P`. -/
theorem skip_next (s : State) {c : Bool} {P : Prop} (h : c = true ↔ P) :
    ∃ t, (.next (s.skipIf c) : Result) = .next t ∧ SkippedIf P s t ∧ Keeps {} s t :=
  ⟨s.skipIf c, rfl, skipIf_skippedIf s h, (Keeps.refl _ s).skipIf c⟩

/-- Settles O18: each of the four is a skip whose test compares two bytes. -/
theorem registerSkipsCompare : Obligations.RegisterSkipsCompare :=
  ⟨fun _ _ s => skip_next s (byte_beq_iff _ _), fun _ _ s => skip_next s (byte_bne_iff _ _),
    fun _ _ s => skip_next s (byte_beq_iff _ _), fun _ _ s => skip_next s (byte_bne_iff _ _)⟩

/-! ## The call stack -/

/-- The state after a push with room (10_state.md R29). -/
def State.pushed (s : State) (w : Word) (h : s.sp.val < 16) : State :=
  { s with stack := s.stack.set s.sp.val w, sp := ⟨s.sp.val + 1, Nat.succ_lt_succ h⟩ }

/-- The state after a pop of a stack that is not empty (10_state.md R29). -/
def State.popped (s : State) : State := { s with sp := ⟨s.sp.val - 1, by omega⟩ }

theorem exec_call_of_room (nnn : Addr) (s : State) (h : s.sp.val < 16) :
    exec (.call nnn) s = .next ((s.pushed (s.pc + 2) h).jumpTo (addrWord nnn)) := by
  obtain ⟨_, e⟩ | ⟨full, -⟩ := execCall_cases nnn s
  · exact e
  · omega

theorem exec_call_of_full (nnn : Addr) (s : State) (h : s.sp.val = 16) :
    exec (.call nnn) s = .next (s.raise .stackOverflow (encode (.call nnn))) := by
  obtain ⟨room, -⟩ | ⟨-, e⟩ := execCall_cases nnn s
  · omega
  · exact e

theorem exec_ret_of_pos (s : State) (h : 0 < s.sp.val) :
    exec .ret s = .next (s.popped.jumpTo (s.stack[s.sp.val - 1]'(by omega))) := by
  obtain ⟨_, e⟩ | ⟨empty, -⟩ := execRet_cases s
  · exact e
  · omega

theorem exec_ret_of_empty (s : State) (h : s.sp.val = 0) :
    exec .ret s = .next (s.raise .stackUnderflow (encode .ret)) := by
  obtain ⟨pos, -⟩ | ⟨-, e⟩ := execRet_cases s
  · omega
  · exact e

theorem pushed_stack (s : State) (w : Word) (h : s.sp.val < 16) (j : Fin 16) :
    (s.pushed w h).stack[j] = if j.val = s.sp.val then w else s.stack[j] := by
  simp [State.pushed, Vector.getElem_set, eq_comm]

theorem pushed_keeps (s : State) (w : Word) (h : s.sp.val < 16) :
    Keeps { sp := True, slots := fun j => j.val = s.sp.val } s (s.pushed w h) :=
  ⟨fun _ _ => rfl, fun _ _ => rfl, fun j hj => (pushed_stack s w h j).trans (if_neg hj), by simp [State.pushed]⟩

theorem popped_keeps (s : State) : Keeps { sp := True } s s.popped :=
  ⟨fun _ _ => rfl, fun _ _ => rfl, fun _ _ => rfl, by simp [State.popped]⟩

/-- Settles O14: with room the push succeeds, and the slot it fills is the one SP named. -/
theorem callPushesTheNextAddressAndJumps : Obligations.CallPushesTheNextAddressAndJumps := by
  intro nnn s room
  refine ⟨_, exec_call_of_room nnn s room, addrWord_toNat nnn, rfl, fun j hj => ?_, (pushed_keeps s _ room).jumpTo _⟩
  rw [State.jumpTo_stack, pushed_stack, if_pos hj]
  exact advanced_advance s

/-- Settles O15: with an entry on the stack the pop succeeds and reads the slot below SP. -/
theorem returnPopsTheMostRecentAddress : Obligations.ReturnPopsTheMostRecentAddress := by
  intro s pos
  refine ⟨_, exec_ret_of_pos s pos, fun j hj => ?_, Nat.sub_add_cancel pos, (popped_keeps s).jumpTo _⟩
  have slot : s.sp.val - 1 = j.val := by omega
  simp [slot]

/-- Settles O16: the push of CALL and the pop of RET fail just there, and the rest is the fault action. -/
theorem stackFaultsHaltPrecisely : Obligations.StackFaultsHaltPrecisely :=
  ⟨fun nnn s full => ⟨encode (.call nnn), formatA_toNat 2 (by decide) nnn, exec_call_of_full nnn s full⟩,
    exec_ret_of_empty⟩

/-- Settles O17: the RET pops the slot the CALL filled, and the slots below it are the ones the CALL kept. -/
theorem returnResumesAfterTheCall : Obligations.ReturnResumesAfterTheCall := by
  intro nnn s t t' room hcall hsp hstack
  obtain ⟨_, hcall', -, pushed_sp, pushed_slot, kept⟩ := callPushesTheNextAddressAndJumps nnn s room
  obtain rfl := next_unique hcall' hcall
  obtain ⟨-, -, kept_slots, -⟩ := kept
  rw [← hsp] at pushed_sp
  obtain ⟨u, hret, popped_pc, popped_sp, -, -, same_slots, -⟩ := returnPopsTheMostRecentAddress t' (by omega)
  refine ⟨u, hret, ?_, Fin.ext (by omega), fun j hj => ?_⟩
  · rw [popped_pc ⟨s.sp.val, room⟩ pushed_sp.symm, hstack]
    exact pushed_slot _ rfl
  · rw [same_slots j id, hstack]
    exact kept_slots j hj.ne

end Sys2Proof.Machine

/-! PROOFS. Register loads, the ALU and the random draw (41_alu.md). Each instruction writes one register, or VF and then a
result; what is left is the number of the byte it writes. -/

namespace Sys2Proof.Machine

/-! ## The flags -/

@[simp] theorem flagByte_toNat (b : Bool) : (flagByte b).toNat = if b then 1 else 0 := by
  cases b <;> rfl

theorem carryFlag_toNat (a b : Byte) : (carryFlag a b).toNat = if a.toNat + b.toNat > 255 then 1 else 0 := by
  simp [carryFlag]

theorem greaterFlag_toNat (a b : Byte) : (greaterFlag a b).toNat = if a.toNat > b.toNat then 1 else 0 := by
  simp [greaterFlag]

theorem lowBitFlag_toNat (a : Byte) : (lowBitFlag a).toNat = a.toNat % 2 := by
  rw [lowBitFlag, BitVec.toNat_and]
  exact Nat.and_one_is_mod _

theorem highBitFlag_toNat (a : Byte) : (highBitFlag a).toNat = a.toNat / 128 := by
  have hlt := a.isLt
  have e : (highBitFlag a).toNat = a.toNat >>> 7 % 2 := lowBitFlag_toNat (a >>> 7)
  rw [e, Nat.shiftRight_eq_div_pow]
  omega

/-! ## The two shapes of instruction -/

/-- What an instruction that writes one register and advances does. -/
theorem writeV_next (s : State) (x : Reg) (b : Byte) :
    ∃ t, (.next (s.writeV x b).advance : Result) = .next t ∧ t.readV x = b ∧ Advanced s t ∧
      Keeps { regs := fun r => r = x } s t :=
  ⟨_, rfl, by simp, advanced_of_pc rfl, writeV_advance_keeps s x b⟩

/-- What an instruction that writes VF and then its result does: with `x = F` the result stays (41_alu.md R125). -/
theorem writeFlagAndResult_next (s : State) (x : Reg) (flag result : Byte) :
    ∃ t, (.next (s.writeFlagAndResult x flag result).advance : Result) = .next t ∧ t.readV x = result ∧
      (x ≠ 15 → t.readV 15 = flag) ∧ Advanced s t ∧ Keeps { regs := fun r => r = x ∨ r = 15 } s t := by
  refine ⟨_, rfl, by simp, fun hx => ?_, advanced_of_pc rfl, writeFlagAndResult_advance_keeps s x flag result⟩
  rw [State.readV_advance, State.readV_writeFlagAndResult, if_neg hx.symm]
  exact if_pos rfl

/-! ## Loads and instructions without a flag -/

/-- Settles O19: each load writes one register. -/
theorem loadsWriteTheirRegister : Obligations.LoadsWriteTheirRegister :=
  ⟨fun x kk s => writeV_next s x kk, fun x y s => writeV_next s x (s.readV y)⟩

/-- Settles O20: byte addition wraps modulo 256. -/
theorem addImmediateWrapsWithoutAFlag : Obligations.AddImmediateWrapsWithoutAFlag := by
  intro x kk s
  obtain ⟨t, ht, result, rest⟩ := writeV_next s x (s.readV x + kk)
  exact ⟨t, ht, by rw [result]; exact BitVec.toNat_add .., rest⟩

/-- Settles O21: a bit of the result is the operation on the operands' bits. -/
theorem bitwiseInstructionsActOnEachBit : Obligations.BitwiseInstructionsActOnEachBit := by
  refine ⟨fun x y s => ?_, fun x y s => ?_, fun x y s => ?_⟩
  · obtain ⟨t, ht, result, rest⟩ := writeV_next s x (s.readV x ||| s.readV y)
    exact ⟨t, ht, fun _ _ => by rw [result, BitVec.getLsbD_or], rest⟩
  · obtain ⟨t, ht, result, rest⟩ := writeV_next s x (s.readV x &&& s.readV y)
    exact ⟨t, ht, fun _ _ => by rw [result, BitVec.getLsbD_and], rest⟩
  · obtain ⟨t, ht, result, rest⟩ := writeV_next s x (s.readV x ^^^ s.readV y)
    exact ⟨t, ht, fun _ _ => by rw [result, BitVec.getLsbD_xor], rest⟩

/-! ## Instructions with a flag -/

/-- Settles O22: the flag is the carry, the result the sum modulo 256. -/
theorem addRegisterSetsCarry : Obligations.AddRegisterSetsCarry := by
  intro x y s
  obtain ⟨t, ht, result, flag, rest⟩ :=
    writeFlagAndResult_next s x (carryFlag (s.readV x) (s.readV y)) (s.readV x + s.readV y)
  exact ⟨t, ht, by rw [result]; exact BitVec.toNat_add .., fun hx => by rw [flag hx, carryFlag_toNat], rest⟩

/-- A byte difference is the integer difference modulo 256. -/
theorem byte_sub_toNat (a b : Byte) : ((a - b).toNat : Int) = ((a.toNat : Int) - b.toNat) % 256 := by
  have ha := a.isLt
  have hb := b.isLt
  rw [BitVec.toNat_sub]
  omega

/-- Settles O23: the difference modulo 256 and the strict comparison. -/
theorem subtractSetsStrictlyGreaterFlag : Obligations.SubtractSetsStrictlyGreaterFlag := by
  intro x y s
  obtain ⟨t, ht, result, flag, rest⟩ :=
    writeFlagAndResult_next s x (greaterFlag (s.readV x) (s.readV y)) (s.readV x - s.readV y)
  exact ⟨t, ht, by rw [result, byte_sub_toNat], fun hx => by rw [flag hx, greaterFlag_toNat], rest⟩

/-- Settles O24: as O23, with the operands exchanged. -/
theorem reverseSubtractSetsStrictlyGreaterFlag : Obligations.ReverseSubtractSetsStrictlyGreaterFlag := by
  intro x y s
  obtain ⟨t, ht, result, flag, rest⟩ :=
    writeFlagAndResult_next s x (greaterFlag (s.readV y) (s.readV x)) (s.readV y - s.readV x)
  exact ⟨t, ht, by rw [result, byte_sub_toNat], fun hx => by rw [flag hx, greaterFlag_toNat], rest⟩

/-- Settles O25: a shift by one halves or doubles, and the bit shifted out is the remainder or the top bit. -/
theorem shiftsMoveOneBitOutIntoTheFlag : Obligations.ShiftsMoveOneBitOutIntoTheFlag := by
  constructor <;> intro x y s
  case left =>
    obtain ⟨t, ht, result, flag, rest⟩ := writeFlagAndResult_next s x (lowBitFlag (s.readV x)) (s.readV x >>> 1)
    refine ⟨t, ht, ?_, fun hx => by rw [flag hx, lowBitFlag_toNat], rest⟩
    rw [result, BitVec.toNat_ushiftRight, Nat.shiftRight_eq_div_pow, Nat.pow_one]
  case right =>
    obtain ⟨t, ht, result, flag, rest⟩ := writeFlagAndResult_next s x (highBitFlag (s.readV x)) (s.readV x <<< 1)
    refine ⟨t, ht, ?_, fun hx => by rw [flag hx, highBitFlag_toNat], rest⟩
    rw [result, BitVec.toNat_shiftLeft, Nat.shiftLeft_eq, Nat.pow_one, Nat.mul_comm]

/-! ## The random draw -/

theorem maskedDraw_keeps (s : State) (x : Reg) (kk r : Byte) :
    Keeps { regs := fun r => r = x, draws := True } s (s.maskedDraw x kk r) := by
  obtain ⟨regs, cells, slots, index, sp, display, dt, st, -, rest⟩ := writeV_advance_keeps s x (r &&& kk)
  exact ⟨regs, cells, slots, index, sp, display, dt, st, fun h => absurd trivial h, rest⟩

/-- Settles O26: the draw is the free byte of the current draw number, whatever it is, and the mask clears its bits. -/
theorem randomIsTheMaskedDraw : Obligations.RandomIsTheMaskedDraw := by
  intro x kk s
  have result : (s.maskedDraw x kk (Config.randomByte s.draws)).readV x = Config.randomByte s.draws &&& kk := by
    change ((s.writeV x _).advance).readV x = _
    simp
  refine ⟨_, rfl, result, rfl, fun b hb => ?_, advanced_of_pc rfl, maskedDraw_keeps ..⟩
  rw [result, BitVec.getLsbD_and, hb, Bool.and_false]

end Sys2Proof.Machine

/-! PROOFS. The index register, the block store and load, and what a read finds after a store (20_memory.md,
42_index_memory.md). A store of at most 4096 bytes reaches distinct cells, so that each byte stored is read back. -/

namespace Sys2Proof.Machine

/-! ## The index register -/

theorem setI_keeps (s : State) (w : Word) : Keeps { index := True } s { s with i := w } :=
  ⟨fun _ _ => rfl, fun _ _ => rfl, fun _ _ => rfl, by simp⟩

/-- Five times a byte fits in 16 bits (42_index_memory.md R142). -/
theorem glyphAddr_toNat (digit : Byte) : (glyphAddr digit).toNat = 5 * digit.toNat := by
  have := digit.isLt
  rw [glyphAddr, BitVec.toNat_ofNat]
  omega

/-- Settles O28: zero extension keeps the operand's number. -/
theorem loadIndexWritesTheAddress : Obligations.LoadIndexWritesTheAddress :=
  fun nnn s => ⟨_, rfl, addrWord_toNat nnn, advanced_of_pc rfl, (setI_keeps s _).advance⟩

/-- Settles O29: word addition wraps modulo 65536, and the glyph address fits. -/
theorem indexArithmetic : Obligations.IndexArithmetic := by
  constructor <;> intro x s
  case left =>
    refine ⟨_, rfl, ?_, advanced_of_pc rfl, (setI_keeps s _).advance⟩
    rw [State.advance_i, BitVec.toNat_add, byteWord_toNat]
  case right => exact ⟨_, rfl, glyphAddr_toNat _, advanced_of_pc rfl, (setI_keeps s _).advance⟩

/-! ## Reading memory -/

/-- Settles O6: the fetch is two reads, and a read reduces its address. -/
theorem fetchReadsTwoBytesHighFirst : Obligations.FetchReadsTwoBytesHighFirst := by
  intro s
  rw [memRead_mod, memRead_mod]
  exact wordOfBytes_toNat _ _

theorem memRead_eq_of_mod_eq (s : State) {a b : Nat} (h : a % 4096 = b % 4096) : s.memRead a = s.memRead b := by
  rw [← memRead_mod s a, h, memRead_mod]

/-- Settles O35: a store of one byte is one write, and a write changes its cell alone. -/
theorem readAfterWriteByCell : Obligations.ReadAfterWriteByCell := by
  intro s a c b
  have read : (s.storeBytes a [b]).memRead c = if c % 4096 = a % 4096 then b else s.memRead c :=
    Memory.read_write s.mem a c b
  exact ⟨fun h => read.trans (if_pos h), fun h => read.trans (if_neg h)⟩

/-! ## Decimal digits -/

theorem decimalDigits_eq (b : Byte) : ∃ h t o : Byte, decimalDigits b = [h, t, o] ∧
    h.toNat = b.toNat / 100 ∧ t.toNat = b.toNat / 10 % 10 ∧ o.toNat = b.toNat % 10 := by
  have := b.isLt
  refine ⟨_, _, _, rfl, ?_, ?_, ?_⟩ <;> rw [BitVec.toNat_ofNat] <;> omega

/-- Settles O31: the digits are the quotients and remainders by 100 and 10. -/
theorem decimalDigitsGiveTheByteBack : Obligations.DecimalDigitsGiveTheByteBack := by
  intro b
  have := b.isLt
  obtain ⟨h, t, o, digits, hh, ht, ho⟩ := decimalDigits_eq b
  exact ⟨h, t, o, digits, by omega, by omega, by omega, by omega⟩

/-- Settles O30: the three digits are stored at three distinct cells, and read back from there. -/
theorem bcdStoresThreeDigits : Obligations.BcdStoresThreeDigits := by
  intro x s
  obtain ⟨h, t, o, digits, hh, ht, ho⟩ := decimalDigits_eq (s.readV x)
  have stored (k : Nat) (hk : k < 3) :
      ((s.storeBytes s.dataAddr [h, t, o]).advance).memRead (s.dataAddr + k) = [h, t, o][k] :=
    memRead_storeBytes_advance s s.dataAddr k [h, t, o] (by simp) hk
  refine ⟨(s.storeBytes s.dataAddr [h, t, o]).advance, by rw [← digits]; rfl, ?_, ?_, ?_, advanced_of_pc rfl,
    storeBytes_advance_keeps s _ _ rfl⟩
  · rw [← hh]; exact congrArg BitVec.toNat (stored 0 (by decide))
  · rw [← ht]; exact congrArg BitVec.toNat (stored 1 (by decide))
  · rw [← ho]; exact congrArg BitVec.toNat (stored 2 (by decide))

/-! ## The register block -/

theorem regsUpTo_getElem (s : State) {x r : Reg} (h : r.val < (s.regsUpTo x).length) :
    (s.regsUpTo x)[r.val] = s.readV r := by
  simp [State.regsUpTo, State.readV]

/-- Settles O32: the registers are stored at at most 16 distinct cells, and read back from there. -/
theorem blockStoreCopiesTheRegisters : Obligations.BlockStoreCopiesTheRegisters := by
  intro x s
  have length := length_regsUpTo s x
  refine ⟨_, rfl, fun r hr => ?_, advanced_of_pc rfl, storeBytes_advance_keeps s _ _ length⟩
  have inBlock : r.val < (s.regsUpTo x).length := by rw [length]; exact Nat.lt_succ_of_le hr
  rw [memRead_storeBytes_advance s _ _ _ (by omega) inBlock, regsUpTo_getElem]

theorem loadRegs_keeps (s : State) (x : Reg) (a : Nat) : Keeps { regs := fun r => r ≤ x } s (s.loadRegs x a) :=
  ⟨fun _ hr => (State.readV_loadRegs ..).trans (if_neg hr), fun _ _ => rfl, fun _ _ => rfl, by simp⟩

/-- Settles O33: the block load replaces the registers up to `x`. -/
theorem blockLoadCopiesTheMemory : Obligations.BlockLoadCopiesTheMemory :=
  fun x s => ⟨_, rfl, fun _ hr => (State.readV_loadRegs ..).trans (if_pos hr), advanced_of_pc rfl,
    (loadRegs_keeps s x _).advance⟩

/-- Settles O34: the next fetch reads the two cells where the block store put V0 and V1. -/
theorem storedInstructionIsFetchedNext : Obligations.StoredInstructionIsFetchedNext := by
  intro x s t hx haddr hexec
  obtain ⟨u, hu, stored, advanced, -⟩ := blockStoreCopiesTheRegisters x s
  obtain rfl : t = u := next_unique hexec hu
  have hpc : t.pc.toNat % 4096 = s.dataAddr % 4096 := by rw [advanced, haddr]; omega
  have high : t.memRead (t.pc.toNat % 4096) = s.readV 0 := by
    rw [← stored 0 (Fin.zero_le x), memRead_mod]
    exact memRead_eq_of_mod_eq t hpc
  have low : t.memRead ((t.pc.toNat + 1) % 4096) = s.readV 1 := by
    rw [← stored 1 hx, memRead_mod]
    exact memRead_eq_of_mod_eq t (Nat.ModEq.add_right 1 hpc)
  rw [fetchReadsTwoBytesHighFirst t, high, low]

/-! ## The canonical form -/

theorem findCell_of_mem {cs : List Host.Cell} (rising : cs.Pairwise (fun c d => c.1 < d.1)) {c : Host.Cell}
    (h : c ∈ cs) : findCell c.1 cs = some c.2 := by
  induction cs with
  | nil => simp at h
  | cons d ds ih =>
    obtain ⟨below, rising⟩ := List.pairwise_cons.1 rising
    rcases List.mem_cons.1 h with rfl | h
    · simp [findCell]
    · rw [findCell, if_neg (below c h).ne, ih rising h]

theorem mem_of_findCell {cs : List Host.Cell} {a : Nat} {b : Byte} (h : findCell a cs = some b) : (a, b) ∈ cs := by
  induction cs with
  | nil => simp [findCell] at h
  | cons d ds ih =>
    rw [findCell] at h
    split at h
    case isTrue hd => cases h; cases hd; exact List.mem_cons_self
    case isFalse => exact List.mem_cons_of_mem _ (ih h)

/-- The listed cells of a canonical memory are those that read as something else than their reset contents. -/
theorem Memory.mem_cells_iff {m : Memory} (h : m.wf) (c : Host.Cell) :
    c ∈ m.cells ↔ c.1 < 4096 ∧ c.2 ≠ initialByte m.font c.1 ∧ m.read c.1 = c.2 := by
  obtain ⟨rising, bounds⟩ := h
  constructor
  · intro hc
    obtain ⟨hlt, hne⟩ := bounds c hc
    exact ⟨hlt, hne, by rw [Memory.read, Nat.mod_eq_of_lt hlt, findCell_of_mem rising hc]; rfl⟩
  · rintro ⟨hlt, hne, hread⟩
    rw [Memory.read, Config.memSize, Nat.mod_eq_of_lt hlt] at hread
    cases hfind : findCell c.1 m.cells with
    | none => rw [hfind] at hread; exact absurd hread.symm hne
    | some b => rw [hfind] at hread; cases hread; exact mem_of_findCell hfind

/-- Rising lists of the same cells are equal. -/
theorem cells_eq_of_mem_iff {cs ds : List Host.Cell} (hcs : cs.Pairwise (fun c d => c.1 < d.1))
    (hds : ds.Pairwise (fun c d => c.1 < d.1)) (h : ∀ c, c ∈ cs ↔ c ∈ ds) : cs = ds := by
  have nodup {l : List Host.Cell} (hl : l.Pairwise (fun c d => c.1 < d.1)) : l.Nodup :=
    hl.imp fun hlt e => hlt.ne (congrArg Prod.fst e)
  exact ((List.perm_ext_iff_of_nodup (nodup hcs) (nodup hds)).2 h).eq_of_pairwise
    (fun _ _ _ _ h1 h2 => absurd h1 h2.asymm) hcs hds

/-- Settles O36: what canonical memories list is told by their reads, and a rising list by its members. -/
theorem canonicalMemoriesReadingAlikeAreEqual : Obligations.CanonicalMemoriesReadingAlikeAreEqual := by
  intro m n hm hn hfont hread
  have cells : m.cells = n.cells := cells_eq_of_mem_iff hm.1 hn.1 fun c => by
    rw [Memory.mem_cells_iff hm, Memory.mem_cells_iff hn, hfont, hread]
  cases m
  cases n
  cases hfont
  cases cells
  rfl

end Sys2Proof.Machine

/-! PROOFS. Clearing the display and drawing a sprite (43_display.md). The sprite flips the pixels it covers, so that a second
draw at the same place covers the same pixels and flips them back. -/

namespace Sys2Proof.Machine

/-! ## Clearing -/

theorem setDisp_keeps (s : State) (d : Display) : Keeps { display := True } s { s with disp := d } :=
  ⟨fun _ _ => rfl, fun _ _ => rfl, fun _ _ => rfl, by simp⟩

/-- Settles O37: the cleared display has no pixel set. -/
theorem clearLeavesNoPixelSet : Obligations.ClearLeavesNoPixelSet :=
  fun s => ⟨_, rfl, Display.pixel_allClear, advanced_of_pc rfl, (setDisp_keeps s _).advance⟩

/-! ## Drawing -/

theorem flagByte_zero_or_one (b : Bool) : flagByte b = 0 ∨ flagByte b = 1 := by
  cases b <;> simp [flagByte]

theorem flagByte_eq_one_iff (b : Bool) : flagByte b = 1 ↔ b = true := by
  cases b <;> simp [flagByte]

/-- The state after a draw, before the advance. -/
def State.withSprite (s : State) (x y : Reg) (n : Fin 16) : State :=
  { s with disp := (s.drawn x y n).1 }.writeV flagReg (flagByte (s.drawn x y n).2)

theorem withSprite_readV_flagReg (s : State) (x y : Reg) (n : Fin 16) :
    (s.withSprite x y n).readV 15 = flagByte (s.drawn x y n).2 :=
  (State.readV_writeV ..).trans (if_pos rfl)

theorem withSprite_keeps (s : State) (x y : Reg) (n : Fin 16) :
    Keeps { display := True, regs := fun r => r = 15 } s (s.withSprite x y n) :=
  ⟨fun _ hr => (State.readV_writeV ..).trans (if_neg hr), fun _ _ => rfl, fun _ _ => rfl, by simp [State.withSprite]⟩

/-- Settles O38: the pixels of one sprite are distinct, so that each covered pixel flips once. -/
theorem drawTogglesTheCoveredPixels : Obligations.DrawTogglesTheCoveredPixels := by
  intro x y n s
  obtain ⟨covered, uncovered, collision⟩ := s.drawn_spec x y n
  have flag : (s.withSprite x y n).advance.readV 15 = flagByte (s.drawn x y n).2 := withSprite_readV_flagReg s x y n
  refine ⟨(s.withSprite x y n).advance, rfl, covered, uncovered, ?_, ?_, advanced_of_pc rfl,
    (withSprite_keeps s x y n).advance⟩
  · rw [flag]; exact flagByte_zero_or_one _
  · rw [flag, flagByte_eq_one_iff]; exact collision

/-! ## Drawing twice -/

/-- What a sprite covers depends on the memory, `I` and the two coordinates. -/
theorem spriteCovers_congr {s t : State} {x y : Reg} (n : Fin 16) (hmem : ∀ a, t.memRead a = s.memRead a)
    (hi : t.i = s.i) (hx : t.readV x = s.readV x) (hy : t.readV y = s.readV y) (p : Pixel) :
    SpriteCovers t x y n p ↔ SpriteCovers s x y n p := by
  simp only [SpriteCovers, State.dataAddr, hmem, hi, hx, hy]

/-- Settles O39: the second draw covers the same pixels, and each of them is now the opposite of what it was. -/
theorem drawingTwiceRestoresTheDisplay : Obligations.DrawingTwiceRestoresTheDisplay := by
  intro x y n s t u first hx hy second
  obtain ⟨t', ht, flipped, same, -, -, -, -, mem, -, index, -⟩ := drawTogglesTheCoveredPixels x y n s
  obtain rfl : t = t' := next_unique first ht
  obtain ⟨u', hu, flipped', same', -, collision', -⟩ := drawTogglesTheCoveredPixels x y n t
  obtain rfl : u = u' := next_unique second hu
  have covers := spriteCovers_congr n (fun a => mem a id) (index id) hx hy
  constructor
  · refine Display.ext fun p => ?_
    by_cases hp : SpriteCovers s x y n p
    · rw [flipped' p ((covers p).2 hp), flipped p hp, Bool.not_not]
    · rw [same' p (mt (covers p).1 hp), same p hp]
  · rw [collision']
    refine exists_congr fun p => ?_
    rw [covers p]
    refine and_congr_right fun hp => ?_
    rw [flipped p hp, Bool.not_eq_true']

end Sys2Proof.Machine

/-! PROOFS. The keypad and timer instructions (44_keypad_timers.md). The key skips test one key, the wait takes the least
pressed one, and a write of ST is heard at once. -/

namespace Sys2Proof.Machine

/-! ## The keypad -/

theorem keyPressed_keyIndex (s : State) {b : Byte} {k : Fin 16} (h : k.val = b.toNat % 16) :
    s.keyPressed (keyIndex b) = s.key[k] := by
  have index : keyIndex b = k := Fin.ext (by rw [keyIndex, Fin.val_ofNat, h])
  rw [index, State.keyPressed]

/-- Settles O41: each is a skip whose test is the latch entry of the low nibble. -/
theorem keySkipsTestTheNamedKey : Obligations.KeySkipsTestTheNamedKey := by
  constructor <;> intro x s
  case left =>
    refine ⟨_, rfl, fun k hk => skipIf_skippedIf s ?_, (Keeps.refl _ s).skipIf _⟩
    rw [keyPressed_keyIndex s hk]
  case right =>
    refine ⟨_, rfl, fun k hk => skipIf_skippedIf s ?_, (Keeps.refl _ s).skipIf _⟩
    rw [keyPressed_keyIndex s hk, Bool.not_eq_true']

theorem exec_ldVxK_of_none (x : Reg) (s : State) (h : s.leastKey = none) : exec (.ldVxK x) s = .next s := by
  simp [exec, execLdVxK, h]

theorem exec_ldVxK_of_some (x : Reg) (s : State) (k : Fin 16) (h : s.leastKey = some k) :
    exec (.ldVxK x) s = .next (s.writeV x (BitVec.ofNat 8 k.val)).advance := by
  simp [exec, execLdVxK, h]

/-- Settles O43: the search for the least pressed key decides between the wait and the key's number, which fits a byte. -/
theorem waitForKeyTakesTheLeastPressedKey : Obligations.WaitForKeyTakesTheLeastPressedKey := by
  constructor
  case left => exact fun x s released => exec_ldVxK_of_none x s (leastKey_eq_none s released)
  case right =>
    intro x s k pressed least
    obtain ⟨t, ht, result, rest⟩ := writeV_next s x (BitVec.ofNat 8 k.val)
    refine ⟨t, (exec_ldVxK_of_some x s k (leastKey_eq_some s k pressed least)).trans ht, ?_, rest⟩
    rw [result, BitVec.toNat_ofNat]
    omega

/-! ## The timers -/

theorem soundActive_iff (s : State) : s.soundActive = true ↔ 1 ≤ s.st.toNat := decide_eq_true_iff

theorem setDt_keeps (s : State) (b : Byte) : Keeps { dt := True } s { s with dt := b } :=
  ⟨fun _ _ => rfl, fun _ _ => rfl, fun _ _ => rfl, by simp⟩

theorem setSt_keeps (s : State) (b : Byte) : Keeps { st := True } s { s with st := b } :=
  ⟨fun _ _ => rfl, fun _ _ => rfl, fun _ _ => rfl, by simp⟩

/-- Settles O42: each moves one byte, and the buzzer's output is a function of ST. -/
theorem timerInstructionsMoveTheCount : Obligations.TimerInstructionsMoveTheCount :=
  ⟨fun x s => writeV_next s x s.dt,
    fun _ s => ⟨_, rfl, rfl, advanced_of_pc rfl, (setDt_keeps s _).advance⟩,
    fun _ s => ⟨_, rfl, rfl, (soundActive_iff _).trans Nat.one_le_iff_ne_zero, advanced_of_pc rfl,
      (setSt_keeps s _).advance⟩⟩

end Sys2Proof.Machine

/-! PROOFS. One step of the machine (60_exceptions.md sections 1, 3 and 5): what each event does to the state, and the values
Construct and Load leave (70_reset_and_hazards.md). -/

namespace Sys2Proof.Machine

/-! ## The next event -/

theorem takeEvent_of_schedule {s : State} {e : Event} {rest : List Event} (h : s.schedule = e :: rest) :
    s.takeEvent = (e, { s with schedule := rest }) := by
  rw [State.takeEvent, h]

theorem step_of_stepIsNext {s t : State} (h : StepIsNext s t) : step s = executorStep t := by
  rw [step, takeEvent_of_stepIsNext h]

theorem step_of_tick {s : State} {rest : List Event} (h : s.schedule = .tick :: rest) :
    step s = .next (State.tick { s with schedule := rest }) := by
  rw [step, takeEvent_of_schedule h]

theorem step_of_load {s : State} {rom : List Byte} {rest : List Event} (h : s.schedule = .load rom :: rest) :
    step s = .next (State.afterLoad { s with schedule := rest } rom) := by
  rw [step, takeEvent_of_schedule h]

theorem step_of_construct {s : State} {rest : List Event} (h : s.schedule = .construct :: rest) :
    step s = .next (State.construct { s with schedule := rest }) := by
  rw [step, takeEvent_of_schedule h]

/-- Settles O10: the event at the head of the schedule is the one taken. -/
theorem stepAppliesTheScheduledEvent : Obligations.StepAppliesTheScheduledEvent :=
  fun _ _ => ⟨step_of_tick, fun _ h => by rw [step, takeEvent_of_schedule h],
    fun _ h => by rw [step, takeEvent_of_schedule h], fun _ => step_of_load, step_of_construct⟩

/-! ## A Step of the executor -/

theorem executorStep_of_running {s : State} (h : s.status = .running) :
    executorStep s = withDisplayHint s (executeFetched s) := by
  rw [executorStep, h]

theorem executorStep_of_halted {s : State} {kind : FaultKind} {op pc : Word} (h : s.status = .halted kind op pc) :
    executorStep s = .next s := by
  rw [executorStep, h]

theorem executeFetched_of_ok {s : State} {i : Instr} (h : decodeWord s.fetchWord = .ok i) :
    executeFetched s = exec i s := by
  rw [executeFetched, h]

theorem executeFetched_of_error {s : State} {e : DecodeError} (h : decodeWord s.fetchWord = .error e) :
    executeFetched s = .next (s.raise .unknownOpcode s.fetchWord) := by
  rw [executeFetched, h]

/-- The fault action leaves the display, so that the hint it clears stays clear. -/
theorem markChanged_raise (s : State) (kind : FaultKind) (op : Word) :
    State.markChanged s (s.raise kind op) = s.raise kind op := by
  simp [State.markChanged, State.raise]

/-- Settles O7: a running Step is the decoded instruction and then the hint. -/
theorem stepExecutesTheDecodedInstruction : Obligations.StepExecutesTheDecodedInstruction := by
  intro s t i next running decoded
  rw [step_of_stepIsNext next, executorStep_of_running running, executeFetched_of_ok decoded]
  cases exec i t <;> rfl

/-- Settles O8: with no instruction to run, the Step is the fault action, which leaves the display. -/
theorem unknownOpcodeHaltsPrecisely : Obligations.UnknownOpcodeHaltsPrecisely := by
  intro s t next running illegal
  cases decoded : decodeWord t.fetchWord with
  | ok i => exact absurd decoded (illegal i)
  | error e =>
    rw [step_of_stepIsNext next, executorStep_of_running running, executeFetched_of_error decoded]
    exact congrArg Host.Outcome.next (markChanged_raise t _ _)

/-- Settles O9: the executor looks at the status first. -/
theorem haltedStepChangesNothing : Obligations.HaltedStepChangesNothing := by
  intro s t kind op pc next halted
  rw [step_of_stepIsNext next, executorStep_of_halted halted]

theorem Display.ne_iff (d e : Display) : d ≠ e ↔ ∃ p, Display.pixel d p ≠ Display.pixel e p := by
  constructor
  · intro hne
    by_contra same
    exact hne (Display.ext fun p => not_not.1 fun hp => same ⟨p, hp⟩)
  · rintro ⟨p, hp⟩ rfl
    exact hp rfl

/-- Settles O40: the hint compares the two displays, and displays differ where a pixel does. -/
theorem hintSaysWhetherAPixelDiffers : Obligations.HintSaysWhetherAPixelDiffers := by
  intro s t u next running hstep
  rw [step_of_stepIsNext next] at hstep
  change u.changed = true ↔ ∃ p, Display.pixel u.disp p ≠ Display.pixel t.disp p
  rw [← Display.ne_iff]
  obtain ⟨halted, -⟩ | ⟨-, -, rfl⟩ | ⟨-, i, u', -, -, rfl⟩ := executorStep_cases hstep
  · exact absurd running halted
  · simp
  · simp

/-! ## A Tick -/

/-- Settles O45: the buzzer sounds while ST is above 0, and a Tick takes one from it. -/
theorem buzzerSoundsUntilTheLastTick : Obligations.BuzzerSoundsUntilTheLastTick := by
  intro s t rest scheduled hstep
  rw [step_of_tick scheduled] at hstep
  cases hstep
  refine ⟨soundActive_iff s, ?_⟩
  rw [soundActive_iff, State.tick_st, tickCounter_toNat]
  dsimp only
  omega

/-! ## Construct and reset -/

theorem construct_memRead (s : State) (a : Nat) : s.construct.memRead a = initialByte s.mem.font (a % 4096) := rfl

theorem construct_readV (s : State) (r : Reg) : s.construct.readV r = 0 := Vector.getElem_replicate r.isLt

theorem construct_stack (s : State) (j : Fin 16) : s.construct.stack[j] = 0 := Vector.getElem_replicate j.isLt

theorem construct_pixel (s : State) (p : Pixel) : Display.pixel s.construct.disp p = false := Display.pixel_allClear p

theorem construct_key (s : State) (k : Fin 16) : s.construct.key[k] = false := Vector.getElem_replicate k.isLt

/-- Settles O50: the step is Construct, whose values are those of the reset column. -/
theorem constructResetsEveryElement : Obligations.ConstructResetsEveryElement :=
  fun _ _ scheduled => ⟨_, step_of_construct scheduled, construct_memRead _, construct_readV _, rfl, rfl, rfl,
    construct_stack _, construct_pixel _, rfl, rfl, construct_key _, rfl, rfl, rfl, rfl⟩

/-- Settles O60: Construct leaves the reset state as it is, so that these are Construct's values; above the font the reset
contents are zero. -/
theorem resetValues : Obligations.ResetValues :=
  ⟨rfl, fun _ ha => dif_neg ha.not_gt, construct_readV State.reset, rfl, rfl, construct_stack State.reset,
    construct_pixel State.reset, rfl, rfl, construct_key State.reset, rfl, rfl⟩

/-! ## Load -/

theorem loaded_memRead (s : State) (rom : List Byte) (a : Nat) :
    (s.loaded rom).memRead a =
      (findCell (a % 4096) (romCells 0x200 rom)).getD (initialByte s.mem.font (a % 4096)) := rfl

theorem loaded_memRead_outside (s : State) (rom : List Byte) (a : Nat)
    (h : a % 4096 < 0x200 ∨ 0x200 + rom.length ≤ a % 4096) :
    (s.loaded rom).memRead a = initialByte s.mem.font (a % 4096) := by
  rw [loaded_memRead, findCell_romCells_none _ _ _ h, Option.getD_none]

theorem loaded_memRead_program (s : State) (rom : List Byte) (fits : rom.length ≤ 3584) (j : Nat) (h : j < rom.length) :
    (s.loaded rom).memRead (0x200 + j) = rom[j] := by
  have unlisted : initialByte s.mem.font (0x200 + j) = 0 := dif_neg (by omega)
  rw [loaded_memRead, Nat.mod_eq_of_lt (by omega : 0x200 + j < 4096), unlisted]
  exact findCell_romCells 0x200 j rom h

/-- Settles O47: the program's cells are read back, every other one reads as after Construct, and so does the rest of the
state but for the hint and the keys. -/
theorem loadResetsAllButTheKeys : Obligations.LoadResetsAllButTheKeys := by
  intro s rom rest scheduled fits
  have loads := load_of_length_le { s with schedule := rest } fits
  refine ⟨State.loaded { s with schedule := rest } rom, ?_, loads, fun a ha => loaded_memRead_outside _ _ _ (by omega),
    fun j hj => loaded_memRead_program _ _ fits j hj, fun a above outside => ?_,
    construct_readV { s with schedule := rest }, rfl, rfl, rfl, construct_stack { s with schedule := rest },
    construct_pixel { s with schedule := rest }, rfl, rfl, rfl, rfl, rfl, rfl, rfl, rfl⟩
  · rw [step_of_load scheduled, State.afterLoad, loads]
  · rw [loaded_memRead_outside _ _ _ outside]
    exact dif_neg above.not_gt

end Sys2Proof.Machine

/-! PROOFS. The whole machine. Everything an instruction can do is said once: it completes and keeps all its row of R20 does
not name, or it is a RET or a CALL that takes its fault. The statements about every instruction and every step follow by
this case distinction and the one over the events. -/

namespace Sys2Proof.Machine

/-! ## Everything an instruction can do -/

/-- The instruction completes: it answers a next state and writes only what it may (10_state.md R20). -/
def Completes (i : Instr) (s : State) : Prop := ∃ t, exec i s = .next t ∧ Keeps (i.mayWrite s) s t

/-- The instruction is a RET or a CALL that takes the fault it has cause for (60_exceptions.md R201, R204, R205). -/
def TakesFault (i : Instr) (s : State) : Prop :=
  (i = .ret ∨ ∃ nnn, i = .call nnn) ∧
    ∃ kind, FaultCause kind (encode i) s.sp ∧ exec i s = .next (s.raise kind (encode i))

/-- A frame fits the instruction's when every part of it is one the instruction may write. -/
theorem Completes.of_keeps {i : Instr} {s t : State} {w : Written} (ht : exec i s = .next t) (h : Keeps w s t)
    (regs : ∀ r, w.regs r → (i.mayWrite s).regs r := by nofun) (cells : ∀ c, w.cells c → (i.mayWrite s).cells c := by nofun)
    (slots : ∀ j, w.slots j → (i.mayWrite s).slots j := by nofun) (index : w.index → (i.mayWrite s).index := by nofun)
    (sp : w.sp → (i.mayWrite s).sp := by nofun) (display : w.display → (i.mayWrite s).display := by nofun)
    (dt : w.dt → (i.mayWrite s).dt := by nofun) (st : w.st → (i.mayWrite s).st := by nofun)
    (draws : w.draws → (i.mayWrite s).draws := by nofun) : Completes i s :=
  ⟨t, ht, h.mono regs cells slots index sp display dt st draws⟩

theorem ret_completes_or_faults (s : State) : Completes .ret s ∨ TakesFault .ret s := by
  obtain empty | pos := Nat.eq_zero_or_pos s.sp.val
  · exact .inr ⟨.inl rfl, .stackUnderflow, ⟨rfl, empty⟩, exec_ret_of_empty s empty⟩
  · exact .inl (.of_keeps (exec_ret_of_pos s pos) ((popped_keeps s).jumpTo _) (sp := fun _ => .inl rfl))

theorem call_completes_or_faults (nnn : Addr) (s : State) : Completes (.call nnn) s ∨ TakesFault (.call nnn) s := by
  by_cases room : s.sp.val < 16
  · exact .inl (.of_keeps (exec_call_of_room nnn s room) ((pushed_keeps s _ room).jumpTo _)
      (slots := fun _ hj => ⟨⟨nnn, rfl⟩, hj⟩) (sp := fun _ => .inr ⟨nnn, rfl⟩))
  · have full : s.sp.val = 16 := by omega
    exact .inr ⟨.inr ⟨nnn, rfl⟩, .stackOverflow, ⟨Laws.EncodedFamily.call nnn, full⟩, exec_call_of_full nnn s full⟩

theorem ldVxK_completes (x : Reg) (s : State) : Completes (.ldVxK x) s := by
  cases pressed : s.leastKey with
  | none => exact ⟨s, exec_ldVxK_of_none x s pressed, Keeps.refl _ s⟩
  | some k => exact .of_keeps (exec_ldVxK_of_some x s k pressed) (writeV_advance_keeps s x _) (regs := fun _ => id)

theorem completes_or_faults (i : Instr) (s : State) : Completes i s ∨ TakesFault i s := by
  cases i
  case ret => exact ret_completes_or_faults s
  case call nnn => exact call_completes_or_faults nnn s
  case ldVxK x => exact .inl (ldVxK_completes x s)
  case sys | jp | jpV0 | seImm | sneImm | seReg | sneReg | skp | sknp => exact .inl ⟨_, rfl, Keeps.refl _ s⟩
  case ldImm | addImm | ldReg | orReg | andReg | xorReg | ldVxDt =>
    exact .inl (.of_keeps rfl (writeV_advance_keeps s _ _) (regs := fun _ => id))
  case addReg | subReg | shr | subnReg | shl =>
    exact .inl (.of_keeps rfl (writeFlagAndResult_advance_keeps s _ _ _) (regs := fun _ => id))
  case rnd x kk =>
    exact .inl (.of_keeps rfl (maskedDraw_keeps s _ _ _) (regs := fun _ => id) (draws := fun _ => ⟨x, kk, rfl⟩))
  case ldVxMem => exact .inl (.of_keeps rfl (loadRegs_keeps s _ _).advance (regs := fun _ => id))
  case ldI nnn => exact .inl (.of_keeps rfl (setI_keeps s _).advance (index := fun _ => .inl ⟨nnn, rfl⟩))
  case addIVx x => exact .inl (.of_keeps rfl (setI_keeps s _).advance (index := fun _ => .inr (.inl ⟨x, rfl⟩)))
  case ldFVx x => exact .inl (.of_keeps rfl (setI_keeps s _).advance (index := fun _ => .inr (.inr ⟨x, rfl⟩)))
  case ldBVx x =>
    exact .inl (.of_keeps rfl (storeBytes_advance_keeps s _ _ rfl) (cells := fun _ h => .inl ⟨x, rfl, h⟩))
  case ldMemVx x =>
    exact .inl (.of_keeps rfl (storeBytes_advance_keeps s _ _ (length_regsUpTo s x))
      (cells := fun _ h => .inr ⟨x, rfl, h⟩))
  case cls => exact .inl (.of_keeps rfl (setDisp_keeps s _).advance (display := fun _ => .inl rfl))
  case drw x y n =>
    exact .inl (.of_keeps rfl (withSprite_keeps s x y n).advance (regs := fun _ => id)
      (display := fun _ => .inr ⟨x, y, n, rfl⟩))
  case ldDtVx x => exact .inl (.of_keeps rfl (setDt_keeps s _).advance (dt := fun _ => ⟨x, rfl⟩))
  case ldStVx x => exact .inl (.of_keeps rfl (setSt_keeps s _).advance (st := fun _ => ⟨x, rfl⟩))

/-- Everything an instruction that answers a next state can do. -/
theorem exec_cases {i : Instr} {s t : State} (h : exec i s = .next t) :
    Keeps (i.mayWrite s) s t ∨
    ((i = .ret ∨ ∃ nnn, i = .call nnn) ∧ ∃ kind, FaultCause kind (encode i) s.sp ∧ t = s.raise kind (encode i)) := by
  obtain ⟨t', ht, kept⟩ | ⟨hi, kind, cause, ht⟩ := completes_or_faults i s
  · obtain rfl : t = t' := next_unique h ht
    exact .inl kept
  · exact .inr ⟨hi, kind, cause, next_unique h ht⟩

/-- What only a fault can change. -/
theorem Keeps.status {w : Written} {s t : State} (h : Keeps w s t) : t.status = s.status := by
  obtain ⟨-, -, -, -, -, -, -, -, -, -, status, -⟩ := h
  exact status

/-! ## Totality -/

theorem exec_has_next (i : Instr) (s : State) : ∃ t, exec i s = .next t := by
  obtain ⟨t, ht, -⟩ | ⟨-, kind, -, ht⟩ := completes_or_faults i s
  · exact ⟨t, ht⟩
  · exact ⟨_, ht⟩

theorem executorStep_has_next (s : State) : ∃ t, executorStep s = .next t := by
  cases status : s.status with
  | halted kind op pc => exact ⟨s, executorStep_of_halted status⟩
  | running =>
    rw [executorStep_of_running status]
    cases decoded : decodeWord s.fetchWord with
    | error e => rw [executeFetched_of_error decoded]; exact ⟨_, rfl⟩
    | ok i =>
      obtain ⟨t, ht⟩ := exec_has_next i s
      rw [executeFetched_of_ok decoded, ht]
      exact ⟨_, rfl⟩

/-- Settles O51: every instruction completes or takes its fault, and every event but the Step is a next state outright. -/
theorem everyStepHasANextState : Obligations.EveryStepHasANextState := by
  refine ⟨fun s => ?_, exec_has_next⟩
  rw [step]
  split
  case h_1 t _ => exact executorStep_has_next t
  case h_2 | h_3 | h_4 | h_5 | h_6 => exact ⟨_, rfl⟩

/-! ## Frames -/

/-- Settles O52: an instruction that completes keeps the status, and a fault changes it. -/
theorem instructionsWriteOnlyTheirElements : Obligations.InstructionsWriteOnlyTheirElements := by
  intro i s t running h
  obtain kept | ⟨hi, kind, -, rfl⟩ := exec_cases h
  · exact ⟨fun _ => kept, fun halted => absurd (kept.status.trans running) halted⟩
  · exact ⟨nofun, fun _ => ⟨hi, rfl⟩⟩

/-! ## The program counter -/

theorem skipIf_pc_cases (s : State) (c : Bool) :
    Advanced s (s.skipIf c) ∨ (s.skipIf c).pc.toNat = (s.pc.toNat + 4) % 65536 := by
  obtain ⟨skipped, advanced⟩ := skipIf_skippedIf s (Iff.rfl : c = true ↔ c = true)
  by_cases hc : c = true
  · exact .inr (skipped hc)
  · exact .inl (advanced hc)

theorem leastKey_none_released {s : State} (h : s.leastKey = none) (k : Fin 16) : s.key[k] = false := by
  simpa [State.keyPressed] using List.find?_eq_none.1 h k (List.mem_finRange k)

/-- What an instruction that is none of the PC setters does to PC. -/
def PcMoves (i : Instr) (s t : State) : Prop :=
  Advanced s t ∨ (i.isSkip ∧ t.pc.toNat = (s.pc.toNat + 4) % 65536) ∨
    ((∃ x, i = .ldVxK x) ∧ (∀ k : Fin 16, s.key[k] = false) ∧ t = s)

theorem pcMoves_skipIf {i : Instr} {s : State} (hi : i.isSkip) (c : Bool) : PcMoves i s (s.skipIf c) :=
  (skipIf_pc_cases s c).imp_right fun skipped => .inl ⟨hi, skipped⟩

theorem pcMoves_of_not_setsPc {i : Instr} {s t : State} (hi : ¬ i.setsPc) (h : exec i s = .next t) :
    PcMoves i s t := by
  cases i
  case ret => exact absurd (.inl rfl) hi
  case jp nnn => exact absurd (.inr ⟨nnn, .inl rfl⟩) hi
  case call nnn => exact absurd (.inr ⟨nnn, .inr (.inl rfl)⟩) hi
  case jpV0 nnn => exact absurd (.inr ⟨nnn, .inr (.inr rfl)⟩) hi
  case seImm x kk => cases h; exact pcMoves_skipIf (.inl ⟨x, kk, .inl rfl⟩) _
  case sneImm x kk => cases h; exact pcMoves_skipIf (.inl ⟨x, kk, .inr rfl⟩) _
  case seReg x y => cases h; exact pcMoves_skipIf (.inr (.inl ⟨x, y, .inl rfl⟩)) _
  case sneReg x y => cases h; exact pcMoves_skipIf (.inr (.inl ⟨x, y, .inr rfl⟩)) _
  case skp x => cases h; exact pcMoves_skipIf (.inr (.inr ⟨x, .inl rfl⟩)) _
  case sknp x => cases h; exact pcMoves_skipIf (.inr (.inr ⟨x, .inr rfl⟩)) _
  case ldVxK x =>
    cases pressed : s.leastKey with
    | none =>
      obtain rfl : t = s := next_unique h (exec_ldVxK_of_none x s pressed)
      exact .inr (.inr ⟨⟨x, rfl⟩, leastKey_none_released pressed, rfl⟩)
    | some k =>
      obtain rfl := next_unique h (exec_ldVxK_of_some x s k pressed)
      exact .inl (advanced_of_pc rfl)
  all_goals
    cases h
    exact .inl (advanced_of_pc rfl)

/-- Settles O53: a fault is the fault action, which leaves PC; the rest goes by the instruction. -/
theorem programCounterDiscipline : Obligations.ProgramCounterDiscipline := by
  intro i s t running h
  obtain kept | ⟨-, kind, -, rfl⟩ := exec_cases h
  · exact ⟨fun halted => absurd (kept.status.trans running) halted, fun _ hi => pcMoves_of_not_setsPc hi h⟩
  · exact ⟨fun _ => rfl, nofun⟩

end Sys2Proof.Machine

/-! PROOFS. What every instruction and every step keeps: a flag's two values, the elements no instruction reads, the halt, the
key latch, the parameters, and the invariant of memory and halt record (20_memory.md section 1, 60_exceptions.md). -/

namespace Sys2Proof.Machine

/-! ## The values of a flag -/

theorem byte_zero_or_one {b : Byte} (h : b.toNat < 2) : b = 0 ∨ b = 1 := by
  rw [← BitVec.toNat_inj, ← BitVec.toNat_inj]
  change b.toNat = 0 ∨ b.toNat = 1
  omega

theorem flagByte_toNat_lt (b : Bool) : (flagByte b).toNat < 2 := by
  cases b <;> decide

theorem lowBitFlag_toNat_lt (a : Byte) : (lowBitFlag a).toNat < 2 := by
  rw [lowBitFlag_toNat]
  exact Nat.mod_lt _ (by decide)

theorem highBitFlag_toNat_lt (a : Byte) : (highBitFlag a).toNat < 2 := lowBitFlag_toNat_lt (a >>> 7)

/-- An ALU instruction's flag stays in VF when the result goes elsewhere. -/
theorem flag_zero_or_one_of_writeFlagAndResult {s t : State} {x : Reg} {flag result : Byte} (hx : x ≠ 15)
    (h : (.next (s.writeFlagAndResult x flag result).advance : Result) = .next t) (hflag : flag.toNat < 2) :
    t.readV 15 = 0 ∨ t.readV 15 = 1 := by
  obtain ⟨t', ht, -, stays, -⟩ := writeFlagAndResult_next s x flag result
  obtain rfl : t = t' := next_unique h ht
  rw [stays hx]
  exact byte_zero_or_one hflag

/-- Settles O27: each of the six writes a comparison, a single bit or the collision flag. -/
theorem flagIsZeroOrOne : Obligations.FlagIsZeroOrOne := by
  intro i s t leaves h
  obtain ⟨x, y, hx, alu⟩ | ⟨x, y, n, rfl⟩ := leaves
  · obtain rfl | rfl | rfl | rfl | rfl := alu
    · exact flag_zero_or_one_of_writeFlagAndResult hx h (flagByte_toNat_lt _)
    · exact flag_zero_or_one_of_writeFlagAndResult hx h (flagByte_toNat_lt _)
    · exact flag_zero_or_one_of_writeFlagAndResult hx h (lowBitFlag_toNat_lt _)
    · exact flag_zero_or_one_of_writeFlagAndResult hx h (flagByte_toNat_lt _)
    · exact flag_zero_or_one_of_writeFlagAndResult hx h (highBitFlag_toNat_lt _)
  · obtain ⟨t', ht, -, -, flag, -⟩ := drawTogglesTheCoveredPixels x y n s
    obtain rfl : t = t' := next_unique h ht
    exact flag

/-! ## What no instruction reads -/

/-- The state with another ST and another display hint. -/
def State.withStAndHint (s : State) (b : Byte) (c : Bool) : State := { s with st := b, changed := c }

/-- From the changed state the instruction goes where it went, but for ST and the hint, and each of the two is as it was when
it was not changed. -/
def Unaffected (i : Instr) (s t : State) (b : Byte) (c : Bool) : Prop :=
  ∃ u, exec i (s.withStAndHint b c) = .next u ∧ u = t.withStAndHint u.st u.changed ∧
    (b = s.st → u.st = t.st) ∧ (c = s.changed → u.changed = t.changed)

theorem exec_unaffected {i : Instr} {s t : State} (h : exec i s = .next t) (b : Byte) (c : Bool) :
    Unaffected i s t b c := by
  cases i
  case ret =>
    obtain empty | pos := Nat.eq_zero_or_pos s.sp.val
    · obtain rfl := next_unique h (exec_ret_of_empty s empty)
      exact ⟨_, exec_ret_of_empty (s.withStAndHint b c) empty, rfl, id, fun _ => rfl⟩
    · obtain rfl := next_unique h (exec_ret_of_pos s pos)
      exact ⟨_, exec_ret_of_pos (s.withStAndHint b c) pos, rfl, id, id⟩
  case call nnn =>
    by_cases room : s.sp.val < 16
    · obtain rfl := next_unique h (exec_call_of_room nnn s room)
      exact ⟨_, exec_call_of_room nnn (s.withStAndHint b c) room, rfl, id, id⟩
    · have full : s.sp.val = 16 := by omega
      obtain rfl := next_unique h (exec_call_of_full nnn s full)
      exact ⟨_, exec_call_of_full nnn (s.withStAndHint b c) full, rfl, id, fun _ => rfl⟩
  case ldVxK x =>
    cases pressed : s.leastKey with
    | none =>
      obtain rfl := next_unique h (exec_ldVxK_of_none x s pressed)
      exact ⟨_, exec_ldVxK_of_none x _ pressed, rfl, id, id⟩
    | some k =>
      obtain rfl := next_unique h (exec_ldVxK_of_some x s k pressed)
      exact ⟨_, exec_ldVxK_of_some x _ k pressed, rfl, id, id⟩
  case ldStVx x =>
    cases h
    exact ⟨_, rfl, rfl, fun _ => rfl, id⟩
  all_goals
    cases h
    exact ⟨_, rfl, rfl, id, id⟩

/-- Settles O54: the meanings take neither field, and a stack fault clears the hint whatever it was. -/
theorem soundTimerAndHintAreNotRead : Obligations.SoundTimerAndHintAreNotRead := by
  constructor <;> intro i s t b h
  case left =>
    obtain ⟨u, hu, same, -, hint⟩ := exec_unaffected h b s.changed
    exact ⟨u, hu, by rw [same, hint rfl]; rfl⟩
  case right =>
    obtain ⟨u, hu, same, sound, -⟩ := exec_unaffected h s.st b
    exact ⟨u, hu, by rw [same, sound rfl]; rfl⟩

/-! ## What only some events write -/

/-- Taking a Step from the schedule changes the schedule alone. -/
theorem eq_of_stepIsNext {s t : State} (h : StepIsNext s t) : ∃ rest, t = { s with schedule := rest } := by
  obtain ⟨-, rfl⟩ | ⟨rest, -, rfl⟩ := h
  · exact ⟨t.schedule, rfl⟩
  · exact ⟨rest, rfl⟩

/-- Settles O55: a halted Step and the events but Load and Construct keep the status. -/
theorem onlyLoadOrConstructLeavesHalt : Obligations.OnlyLoadOrConstructLeavesHalt := by
  intro s t halted h
  obtain ⟨t₀, next, hstep⟩ | ⟨_, -, rfl⟩ | ⟨_, _, -, rfl⟩ | ⟨_, _, -, rfl⟩ | ⟨rom, rest, hs, rfl⟩ | ⟨rest, hs, rfl⟩ :=
    step_cases h
  · obtain ⟨rest, rfl⟩ := eq_of_stepIsNext next
    obtain ⟨-, rfl⟩ | ⟨running, -⟩ | ⟨running, -⟩ := executorStep_cases hstep
    · exact .inl rfl
    · exact absurd running halted
    · exact absurd running halted
  · exact .inl rfl
  · exact .inl rfl
  · exact .inl rfl
  · obtain ⟨fits, e⟩ | ⟨-, e⟩ := afterLoad_cases { s with schedule := rest } rom
    · exact .inr ⟨by rw [e]; rfl, .inr ⟨rom, rest, hs, fits⟩⟩
    · exact .inl (by rw [e])
  · exact .inr ⟨rfl, .inl ⟨rest, hs⟩⟩

/-- No instruction writes the keys or the font parameter, and only `Cxkk` writes the draw number. -/
theorem exec_keeps_keys_and_parameters {i : Instr} {s t : State} (h : exec i s = .next t) :
    t.key = s.key ∧ t.mem.font = s.mem.font ∧ s.draws ≤ t.draws := by
  obtain ⟨-, -, -, -, -, -, -, -, draws, key, -, -, font, -⟩ | ⟨-, kind, -, rfl⟩ := exec_cases h
  · refine ⟨key, font, ?_⟩
    by_cases draw : ∃ x kk, i = .rnd x kk
    · obtain ⟨x, kk, rfl⟩ := draw
      cases h
      exact Nat.le_succ _
    · exact (draws draw).ge
  · exact ⟨rfl, rfl, Nat.le_refl _⟩

theorem executorStep_keeps_keys_and_parameters {s t : State} (h : executorStep s = .next t) :
    t.key = s.key ∧ t.mem.font = s.mem.font ∧ s.draws ≤ t.draws := by
  obtain ⟨-, rfl⟩ | ⟨-, -, rfl⟩ | ⟨-, i, u, -, hu, rfl⟩ := executorStep_cases h
  · exact ⟨rfl, rfl, Nat.le_refl _⟩
  · exact ⟨rfl, rfl, Nat.le_refl _⟩
  · exact exec_keeps_keys_and_parameters (t := u) hu

/-- Settles O56: of the other events, a Step, a Tick and a Load all keep the latch. -/
theorem onlyKeyEventsAndConstructWriteKeys : Obligations.OnlyKeyEventsAndConstructWriteKeys := by
  intro s t h written
  obtain ⟨t₀, next, hstep⟩ | ⟨_, -, rfl⟩ | ⟨k, rest, hs, rfl⟩ | ⟨k, rest, hs, rfl⟩ | ⟨rom, rest, -, rfl⟩ | ⟨rest, hs, rfl⟩ :=
    step_cases h
  · obtain ⟨rest, rfl⟩ := eq_of_stepIsNext next
    exact absurd (executorStep_keeps_keys_and_parameters hstep).1 written
  · exact absurd rfl written
  · exact ⟨rest, .inr ⟨k, .inl hs⟩⟩
  · exact ⟨rest, .inr ⟨k, .inr hs⟩⟩
  · obtain ⟨-, e⟩ | ⟨-, e⟩ := afterLoad_cases { s with schedule := rest } rom
    · exact absurd (by rw [e]; rfl) written
    · exact absurd (by rw [e]) written
  · exact ⟨rest, .inl hs⟩

/-- Settles O59: Construct and Load carry both over, and an instruction at most counts a draw. -/
theorem stepKeepsTheParameters : Obligations.StepKeepsTheParameters := by
  intro s t h
  obtain ⟨t₀, next, hstep⟩ | ⟨_, -, rfl⟩ | ⟨_, _, -, rfl⟩ | ⟨_, _, -, rfl⟩ | ⟨rom, rest, -, rfl⟩ | ⟨_, -, rfl⟩ :=
    step_cases h
  · obtain ⟨rest, rfl⟩ := eq_of_stepIsNext next
    exact (executorStep_keeps_keys_and_parameters hstep).2
  · exact ⟨rfl, Nat.le_refl _⟩
  · exact ⟨rfl, Nat.le_refl _⟩
  · exact ⟨rfl, Nat.le_refl _⟩
  · obtain ⟨-, e⟩ | ⟨-, e⟩ := afterLoad_cases { s with schedule := rest } rom
    · rw [e]
      exact ⟨rfl, Nat.le_refl _⟩
    · rw [e]
      exact ⟨rfl, Nat.le_refl _⟩
  · exact ⟨rfl, Nat.le_refl _⟩

/-! ## The invariant -/

/-- Settles O58: nothing is listed in memory, and the core runs. -/
theorem resetMeetsTheInvariant : Obligations.ResetMeetsTheInvariant := ⟨Memory.empty_wf _, trivial⟩

/-- An instruction leaves memory as it is or stores bytes in it. -/
theorem exec_mem_cases {i : Instr} {s t : State} (h : exec i s = .next t) :
    t.mem = s.mem ∨ ∃ a bytes, t.mem = s.mem.writeBytes a bytes := by
  cases i
  case ret =>
    obtain ⟨_, e⟩ | ⟨_, e⟩ := execRet_cases s
    · exact .inl (by rw [next_unique h e]; rfl)
    · exact .inl (by rw [next_unique h e]; rfl)
  case call nnn =>
    obtain ⟨_, e⟩ | ⟨_, e⟩ := execCall_cases nnn s
    · exact .inl (by rw [next_unique h e]; rfl)
    · exact .inl (by rw [next_unique h e]; rfl)
  case ldVxK x =>
    cases pressed : s.leastKey with
    | none => exact .inl (by rw [next_unique h (exec_ldVxK_of_none x s pressed)])
    | some k => exact .inl (by rw [next_unique h (exec_ldVxK_of_some x s k pressed)]; rfl)
  case ldBVx x | ldMemVx x =>
    cases h
    exact .inr ⟨_, _, rfl⟩
  all_goals
    cases h
    exact .inl rfl

theorem exec_keeps_wf {i : Instr} {s t : State} (wf : s.mem.wf) (h : exec i s = .next t) : t.mem.wf := by
  obtain e | ⟨a, bytes, e⟩ := exec_mem_cases h
  · rw [e]; exact wf
  · rw [e]; exact Memory.writeBytes_wf _ _ _ wf

/-- A running core has no record to hold. -/
theorem inv_of_running {s : State} (wf : s.mem.wf) (running : s.status = .running) : s.Inv :=
  ⟨wf, by rw [State.RecordHolds, running]; trivial⟩

/-- The record of a fault just taken is true of the state the fault leaves. -/
theorem inv_raise {s : State} {kind : FaultKind} (wf : s.mem.wf) (cause : FaultCause kind s.fetchWord s.sp) :
    (s.raise kind s.fetchWord).Inv :=
  ⟨wf, rfl, rfl, rfl, cause⟩

/-- The invariant is about memory, PC, SP, the status and the hint alone. -/
theorem inv_congr {s t : State} (h : s.Inv) (mem : t.mem = s.mem) (pc : t.pc = s.pc) (sp : t.sp = s.sp)
    (status : t.status = s.status) (changed : t.changed = s.changed) : t.Inv := by
  obtain ⟨wf, record⟩ := h
  refine ⟨mem ▸ wf, ?_⟩
  rw [State.RecordHolds, status, State.fetchWord_congr mem pc, pc, changed, sp]
  exact record

theorem executorStep_keeps_inv {s t : State} (inv : s.Inv) (h : executorStep s = .next t) : t.Inv := by
  have ⟨wf, _⟩ := inv
  obtain ⟨-, rfl⟩ | ⟨-, illegal, rfl⟩ | ⟨running, i, u, decoded, hu, rfl⟩ := executorStep_cases h
  · exact inv
  · exact inv_raise wf illegal
  · obtain kept | ⟨-, kind, cause, rfl⟩ := exec_cases hu
    · have wf' : u.mem.wf := exec_keeps_wf wf hu
      exact inv_of_running wf' (kept.status.trans running)
    · obtain ⟨-, word⟩ : StandsFor i s.fetchWord := decodeWord_standsFor decoded
      rw [word] at cause ⊢
      rw [markChanged_raise]
      exact inv_raise wf cause

/-- Settles O57: a fault records the word it fetched, nothing a halted core does touches what the record names, and memory is
written by the canonical write, by Load and by Construct alone. -/
theorem stepKeepsTheInvariant : Obligations.StepKeepsTheInvariant := by
  intro s t inv h
  obtain ⟨t₀, next, hstep⟩ | ⟨_, -, rfl⟩ | ⟨_, _, -, rfl⟩ | ⟨_, _, -, rfl⟩ | ⟨rom, rest, -, rfl⟩ | ⟨_, -, rfl⟩ :=
    step_cases h
  · obtain ⟨rest, rfl⟩ := eq_of_stepIsNext next
    have taken : State.Inv { s with schedule := rest } := inv_congr inv rfl rfl rfl rfl rfl
    exact executorStep_keeps_inv taken hstep
  · exact inv_congr inv rfl rfl rfl rfl rfl
  · exact inv_congr inv rfl rfl rfl rfl rfl
  · exact inv_congr inv rfl rfl rfl rfl rfl
  · obtain ⟨fits, e⟩ | ⟨-, e⟩ := afterLoad_cases { s with schedule := rest } rom
    · rw [e]
      exact inv_of_running (Memory.rom_wf _ _ fits) rfl
    · rw [e]
      exact inv_congr inv rfl rfl rfl rfl rfl
  · exact inv_of_running (Memory.empty_wf _) rfl

end Sys2Proof.Machine
